-- ==== Sys2Proof/Word.lean ====
section
/-! DEFINITION. The two word types of the block: `u8` and `u16` (spec/00_scope.md R7, R8). Bit 0 is the least
significant bit, and no value is signed. -/

namespace Sys2Proof

/-- `u8`: a command byte, a channel of an RGB888 pixel, or an element of a byte buffer. -/
abbrev U8 := BitVec 8

/-- `u16`: a packed RGB565 pixel, or an element of a word buffer. -/
abbrev U16 := BitVec 16

/-- The 3-bit type of a `STATUS` code (spec/60_exceptions.md R142). -/
abbrev U3 := BitVec 3

end Sys2Proof
end

