-- ==== Sys2Proof/Syntax.lean ====
section
/-! DEFINITION. The instructions of the block: one constructor per row of spec/opcode_table.json. An instruction is
what the command byte says (R60): its operands are the request's fields (R22), "not bits of the command". -/

namespace Sys2Proof

/-- One constructor per row of the opcode table (R61, R62). -/
inductive Instr where
  /-- UNPACK565, `CMD = 0x00` (R80). -/
  | unpack565
  /-- PACK888, `CMD = 0x01` (R90). -/
  | pack888
  /-- DECODE, `CMD = 0x02` (R100). -/
  | decode
  /-- ENCODE, `CMD = 0x03` (R106). -/
  | encode
  /-- B2W, `CMD = 0x04` (R120). -/
  | b2w
  /-- W2B, `CMD = 0x05` (R124). -/
  | w2b
  /-- ILLEGAL: any other command byte `cmd` (R62, R143). -/
  | illegal (cmd : U8)
deriving DecidableEq, Repr

end Sys2Proof
end

