-- ==== Sys2Proof/WellFormed.lean ====
section
/-! DEFINITION. Which instructions some command byte stands for: `illegal cmd` only for the bytes that R62 calls
illegal. -/

namespace Sys2Proof

/-- R60: `OP = CMD[2:0]`, the operation selector. -/
def opField (cmd : U8) : U3 := cmd.extractLsb' 0 3

/-- R60: `RSV = CMD[7:3]`, reserved, must be `00000`. -/
def rsvField (cmd : U8) : BitVec 5 := cmd.extractLsb' 3 5

/-- R62: "A command byte is illegal in two cases: `OP` is `110` or `111`, or `RSV` is not zero." -/
def isIllegalCommand (cmd : U8) : Bool :=
  opField cmd == 0b110#3 || opField cmd == 0b111#3 || rsvField cmd != 0#5

/-- The check on an instruction: an `illegal` carries a byte that is illegal by R62, so that each byte value "is exactly
one of the six operations or illegal". -/
def Instr.wellFormed : Instr → Bool
  | .unpack565 => true
  | .pack888 => true
  | .decode => true
  | .encode => true
  | .b2w => true
  | .w2b => true
  | .illegal cmd => isIllegalCommand cmd

end Sys2Proof
end

