-- ==== Sys2Proof/Decode.lean ====
section
/-! DEFINITION. The decoder of the command byte, written from the opcode table (R61) as rows of match and mask, and the
encoder beside it. -/

namespace Sys2Proof

/-- One exact-match row of the opcode table: a byte `c` is the row's when `c & mask = pattern`. -/
structure OpcodeRow where
  pattern : U8
  mask : U8
  instr : Instr
deriving DecidableEq, Repr

/-- R61: the six legal rows. "The match is on the whole byte (mask `0xFF`), because `RSV` must be zero." -/
def opcodeRows : List OpcodeRow :=
  [ ⟨0x00#8, 0xFF#8, .unpack565⟩,
    ⟨0x01#8, 0xFF#8, .pack888⟩,
    ⟨0x02#8, 0xFF#8, .decode⟩,
    ⟨0x03#8, 0xFF#8, .encode⟩,
    ⟨0x04#8, 0xFF#8, .b2w⟩,
    ⟨0x05#8, 0xFF#8, .w2b⟩ ]

/-- Does a command byte match a row? -/
def rowMatches (cmd : U8) (row : OpcodeRow) : Bool := cmd &&& row.mask == row.pattern

/-- The decoder, total on the 256 byte values (R62): the row that matches, and where none does, ILLEGAL, the table's
row of lowest priority (spec/90_conflicts.md C9). -/
def decodeCommand (cmd : U8) : Instr :=
  match opcodeRows.find? (rowMatches cmd) with
  | some row => row.instr
  | none => .illegal cmd

/-- Why a byte sequence holds no instruction. -/
inductive DecodeError where
  /-- The sequence is empty: "Every request has exactly one command byte" (R60). -/
  | noCommandByte
deriving DecidableEq, Repr

/-- The decoder on a byte sequence: one command byte, and the bytes after it. R68: the block has one command length,
8 bits. -/
def decodeBytes : List U8 → Except DecodeError (Instr × List U8)
  | [] => .error .noCommandByte
  | cmd :: rest => .ok (decodeCommand cmd, rest)

/-- The encoder: the command byte of an instruction, `CMD = RSV ++ OP` (R60, R61). -/
def encodeCommand : Instr → U8
  | .unpack565 => 0b00000#5 ++ 0b000#3
  | .pack888 => 0b00000#5 ++ 0b001#3
  | .decode => 0b00000#5 ++ 0b010#3
  | .encode => 0b00000#5 ++ 0b011#3
  | .b2w => 0b00000#5 ++ 0b100#3
  | .w2b => 0b00000#5 ++ 0b101#3
  | .illegal cmd => cmd

/-- The instruction the decoder reads from an opcode-table word of `nbits` bits. Every command is one byte (R68), so a
word of another length is no instruction. -/
def decodeTableWord (nbits w : Nat) : Option Instr :=
  if nbits = 8 then some (decodeCommand (BitVec.ofNat 8 w)) else none

end Sys2Proof
end

