-- ==== Sys2Proof/Config.lean ====
section
/-! DEFINITION. The three parameters of a block instance that no source fixes (spec/00_scope.md R6,
spec/92_eei_decisions.md D6, D7, D8). -/

namespace Sys2Proof

/-- Parameter `ENDIAN` (R42): which byte of a pair is the low half of the 16-bit word. -/
inductive Endian where
  | little
  | big
deriving DecidableEq, Repr, Inhabited

/-- The parameters of R6. They are fixed for an instance and cannot change while it runs (R27). -/
structure Params where
  /-- `ENDIAN`: one byte order for both directions of the view (R43). -/
  endian : Endian
  /-- `DIM_BITS`, at least 1: the width in bits of the `WIDTH` and `HEIGHT` request fields (R67). -/
  dimBits : ℕ+
  /-- `MAX_PIXELS`, at least 1, or `none` for `unbounded` (R146). -/
  maxPixels : Option ℕ+
deriving DecidableEq, Repr, Inhabited

/-- The parameters of the instance that `State.reset` is the reset state of. R6: "No source fixes a value for any of
them", so this is an uninterpreted constant: nothing can be proved of its value. DESIGN CHOICE (log entry 1), safe. -/
opaque Config.params : Params

end Sys2Proof
end

