-- ==== Sys2Proof/Machine/State.lean ====
section
/-! DEFINITION. The state of one block instance and of the hosts at its ports, as plain data.

The block "holds no state of its own" (R20, R28): what stands in for registers are the fields of the request being
performed and of the response (R22, R23). The request port and the response port are state because R34 and R160 speak of
a request "accepted but not answered" and of a port that "holds no response". The hosts are agents beside the block
(R14): their programs, bindings and display are state because R21, R69, R70, R152, R163 and R167 say what they do. -/

namespace Sys2Proof.Machine

/-! ### Values -/

/-- R29: an RGB888 pixel, "a triple `(r, g, b)` of three `u8` values", no alpha. -/
structure Rgb888 where
  r : U8
  g : U8
  b : U8
deriving DecidableEq, Repr

/-- R30: an image buffer. Its invariant `pixels.length = width * height` is `Image.wf` (Machine/Ops.lean). -/
structure Image where
  width : Nat
  height : Nat
  pixels : List Rgb888
deriving DecidableEq, Repr

/-! ### The request and the response -/

/-- R22: the fields of a request. "A field that an operation does not read is ignored, whatever it holds." `WIDTH` and
`HEIGHT` are read as natural numbers (R67); that each fits in `DIM_BITS` bits is `Request.fits` (Machine/Operands.lean). -/
structure Request where
  /-- `CMD`, the command byte (R60). -/
  cmd : U8
  /-- `P`, read by UNPACK565. -/
  p : U16
  /-- `R`, read by PACK888. -/
  r : U8
  /-- `G`, read by PACK888. -/
  g : U8
  /-- `B`, read by PACK888. -/
  b : U8
  /-- `WIDTH`, read by DECODE and ENCODE. -/
  width : Nat
  /-- `HEIGHT`, read by DECODE and ENCODE. -/
  height : Nat
  /-- `IN_WORDS`, read by DECODE and W2B. -/
  inWords : List U16
  /-- `IN_BYTES`, read by ENCODE and B2W. -/
  inBytes : List U8
deriving DecidableEq, Repr

/-- The request whose every field is zero or empty: what the request fields hold at reset. DESIGN CHOICE (log entry 2),
unsafe: no rule gives a value. -/
def Request.blank : Request :=
  { cmd := 0, p := 0, r := 0, g := 0, b := 0, width := 0, height := 0, inWords := [], inBytes := [] }

/-- R23: the fields of a response. A result field is `none` where it "holds no value" (R25). -/
structure Response where
  /-- `STATUS`, a 3-bit code (R142), written by every request. -/
  status : U3
  /-- `OUT_R`, written by UNPACK565. -/
  outR : Option U8
  /-- `OUT_G`, written by UNPACK565. -/
  outG : Option U8
  /-- `OUT_B`, written by UNPACK565. -/
  outB : Option U8
  /-- `OUT_P`, written by PACK888. -/
  outP : Option U16
  /-- `OUT_IMG`, written by DECODE. -/
  outImg : Option Image
  /-- `OUT_WORDS`, written by ENCODE and B2W. -/
  outWords : Option (List U16)
  /-- `OUT_BYTES`, written by W2B. -/
  outBytes : Option (List U8)
deriving DecidableEq, Repr

/-- The names of R23's response fields. -/
inductive RspField where
  | status
  | outR
  | outG
  | outB
  | outP
  | outImg
  | outWords
  | outBytes
deriving DecidableEq, Repr

/-- R142's errors with the `info` that `raise` gives each (R141). -/
inductive ErrorInfo where
  /-- `Length(actual, required)` (R144). -/
  | length (actual required : Nat)
  /-- `Dim(WIDTH, HEIGHT)` (R145). -/
  | dim (width height : Nat)
  /-- `Illegal(CMD)` (R143). -/
  | illegal (cmd : U8)
  /-- `Capacity(WIDTH*HEIGHT)` (R146). -/
  | capacity (pixels : Nat)
deriving DecidableEq, Repr

/-- A request accepted at the request port and not answered yet, with the number of the host that sent it. -/
structure Pending where
  sender : Nat
  req : Request
deriving DecidableEq, Repr

/-! ### The hosts -/

/-- A value a host holds: a response field it has read, or a buffer it starts with. -/
inductive Value where
  | status (code : U3)
  | byte (v : U8)
  | word (v : U16)
  | words (ws : List U16)
  | bytes (bs : List U8)
  | image (im : Image)
deriving DecidableEq, Repr

/-- R69: an operand of a host statement, "a name bound earlier by `->`, or a literal". Names are numbers here. -/
inductive Operand (α : Type) where
  | name (n : Nat)
  | lit (v : α)
deriving DecidableEq, Repr

/-- A statement of a host program that sends a request: R69's six forms, each with its optional `-> name`, R70's two
macros, and a request with no mnemonic. -/
inductive HostCmd where
  /-- `UNPACK565 p=<u16> -> (r, g, b)` -/
  | unpack565 (p : Operand U16) (dst : Option (Nat × Nat × Nat))
  /-- `PACK888 r=<u8>, g=<u8>, b=<u8> -> p` -/
  | pack888 (r g b : Operand U8) (dst : Option Nat)
  /-- `DECODE w=<n>, h=<n>, words=<buffer> -> img` -/
  | decode (w h : Nat) (words : Operand (List U16)) (dst : Option Nat)
  /-- `ENCODE w=<n>, h=<n>, bytes=<buffer> -> words` -/
  | encode (w h : Nat) (bytes : Operand (List U8)) (dst : Option Nat)
  /-- `B2W bytes=<buffer> -> words` -/
  | b2w (bytes : Operand (List U8)) (dst : Option Nat)
  /-- `W2B words=<buffer> -> bytes` -/
  | w2b (words : Operand (List U16)) (dst : Option Nat)
  /-- `RAWDECODE w=W, h=H, bytes=F -> img` (R70) -/
  | rawDecode (w h : Nat) (bytes : Operand (List U8)) (dst : Option Nat)
  /-- `RAWENCODE w=W, h=H, bytes=F -> out` (R70) -/
  | rawEncode (w h : Nat) (bytes : Operand (List U8)) (dst : Option Nat)
  /-- A request written out field by field (spec/95_test_vectors.md P4, steps 3 and 4). -/
  | raw (req : Request)
deriving DecidableEq, Repr

/-- A statement of a host program (R21). -/
inductive HostStmt where
  /-- Send a request, or the requests of a macro. -/
  | send (cmd : HostCmd)
  /-- Read one field of the host's latest response (R163). -/
  | read (field : RspField) (dst : Option Nat)
deriving DecidableEq, Repr

/-- What a host does with the response it waits for. -/
inductive Waiting where
  /-- Look at `STATUS` only (a `raw` request). -/
  | status
  /-- Bind `OUT_R`, `OUT_G`, `OUT_B` (UNPACK565). -/
  | channels (dst : Option (Nat × Nat × Nat))
  /-- Bind `OUT_P` (PACK888). -/
  | pixel (dst : Option Nat)
  /-- Bind `OUT_IMG` and display it (DECODE). -/
  | image (dst : Option Nat)
  /-- Bind `OUT_WORDS` (ENCODE, B2W). -/
  | words (dst : Option Nat)
  /-- Bind `OUT_BYTES` (W2B). -/
  | bytes (dst : Option Nat)
  /-- Send the DECODE of `OUT_WORDS`: the second request of RAWDECODE (R70). -/
  | thenDecode (w h : Nat) (dst : Option Nat)
  /-- Send the W2B of `OUT_WORDS`: the second request of RAWENCODE (R70). -/
  | thenW2b (dst : Option Nat)
deriving DecidableEq, Repr

/-- R14: a host, "the agent that sends requests to the block and receives responses". -/
structure HostAgent where
  /-- The statements it has not run yet, next first (R21). -/
  program : List HostStmt
  /-- What it does with the response it waits for; `none` where it waits for none. -/
  waiting : Option Waiting
  /-- The latest response it got: its macro's or request's result (R70, R163). -/
  last : Option Response
  /-- The names it has bound (R69), in rising order of name, each once. -/
  bindings : List (Nat × Value)
  /-- The image it displays (R152, R167). -/
  display : Option Image
deriving DecidableEq, Repr

/-! ### Who moves, and why a step stops -/

/-- One move of the system. R50 leaves the order of moves of different hosts free, so a State holds the order as data. -/
inductive Move where
  /-- The block performs the oldest accepted request: R168's one atomic step per request. -/
  | block
  /-- Host `n` runs its next statement. -/
  | host (n : Nat)
  /-- The block is reset (R160). -/
  | reset
deriving DecidableEq, Repr

/-- Why a step ends in a fault. No meaning of an instruction raises one: the block answers every request (R168). -/
inductive Fault where
  /-- R25, R163: a host read a response field that holds no value. Raised by a host's `read` and by a host that takes a
  result from a response. Safe: the spec asks for it ("A model must treat reading such a field as a fault"). -/
  | noValue (field : RspField)
  /-- R69, R163: a host statement names a buffer or value that the host has not bound, or bound to another kind of value.
  Raised by a host's move. Safe: no request is sent where the spec gives none. -/
  | unboundName (n : Nat)
  /-- R67: a host statement has a `WIDTH` or `HEIGHT` that `DIM_BITS` bits cannot hold. Raised by a host's move. Safe: no
  such request can be encoded. -/
  | dimTooWide (width height : Nat)
deriving DecidableEq, Repr

/-- Why a step is refused. -/
inductive Refusal where
  /-- An instruction whose meaning is not written yet; raised by `exec` alone. Safe. No arm of `exec` answers it. -/
  | notModelled (mnemonic : String)
  /-- spec/93_implementation_defined.md U8: a host got one of the reserved codes 5 to 7, which are "never written. A model
  that sees one is in error: `refuse`". Raised when a response is delivered. Safe. -/
  | reservedStatus (code : U3)
deriving DecidableEq, Repr

/-! ### The state -/

/-- The state of the system: one block instance, its two ports and the hosts. -/
structure State where
  /-- `ENDIAN`, `DIM_BITS`, `MAX_PIXELS` of the instance (R6, R27). No step changes them. -/
  params : Params
  /-- The request port: the requests accepted and not answered, oldest first (R34, R50, R160). -/
  pending : List Pending
  /-- The fields of the request being performed (R22); after it, of the latest request performed. -/
  req : Request
  /-- The response port (R23): the response of the latest request, or `none` where it "holds no response" (R34). -/
  rsp : Option Response
  /-- The model's fault record (R141): the error of the latest request, `none` where it had none. -/
  record : Option ErrorInfo
  /-- The hosts the model holds; host `n` is the `n`-th. -/
  hosts : List HostAgent
  /-- Who moves next, next first (R50); where nothing is listed the block moves. -/
  moves : List Move
deriving DecidableEq, Repr

/-- The system right after reset, with no host attached. R34, R160: the response port holds no response and no request is
pending. The request fields hold `Request.blank` (log entry 2) and the parameters are the instance's (log entry 1). -/
def State.reset : State :=
  { params := Config.params
    pending := []
    req := Request.blank
    rsp := none
    record := none
    hosts := []
    moves := [] }

end Sys2Proof.Machine
end

