-- ==== Sys2Proof/Machine/Flags.lean ====
section
/-! DEFINITION. `STATUS`, "the block's only flag or condition code" (R26): its codes (R142), the checks that decide it
for the whole-image operations, and their priority (R148). -/

namespace Sys2Proof.Machine

/-- The named values of `STATUS` (R142). -/
inductive Status where
  | ok
  | length
  | dim
  | illegal
  | capacity
deriving DecidableEq, Repr

/-- R142: the 3-bit code of a status. -/
def statusCode : Status → U3
  | .ok => 0
  | .length => 1
  | .dim => 2
  | .illegal => 3
  | .capacity => 4

/-- The status a code stands for; none for the reserved codes 5 to 7 (R142). -/
def statusOfCode (code : U3) : Option Status :=
  match code.toNat with
  | 0 => some .ok
  | 1 => some .length
  | 2 => some .dim
  | 3 => some .illegal
  | 4 => some .capacity
  | _ => none

/-- The status that an error sets (R141, R142). -/
def errorStatus : ErrorInfo → Status
  | .length _ _ => .length
  | .dim _ _ => .dim
  | .illegal _ => .illegal
  | .capacity _ => .capacity

/-- R146: `MAX_PIXELS` is not `unbounded`, and `n` pixels exceed it. -/
def overCapacity (maxPixels : Option ℕ+) (n : Nat) : Bool :=
  match maxPixels with
  | none => false
  | some limit => decide ((limit : Nat) < n)

/-- The error of a DECODE or ENCODE of `w` by `h` pixels whose input has `len` elements where `required` are needed, or
none: R145, then R146, then R144, the first that applies (R148). The product is exact (R10). -/
def imageError (params : Params) (w h len required : Nat) : Option ErrorInfo :=
  if w = 0 ∨ h = 0 then some (.dim w h)
  else if overCapacity params.maxPixels (w * h) then some (.capacity (w * h))
  else if len ≠ required then some (.length len required)
  else none

end Sys2Proof.Machine
end

