-- ==== Sys2Proof/Machine/Ops.lean ====
section
/-! DEFINITION. The operations the meanings share: the bit operators of R9, the two bytes of a word (R42), the accesses
of a byte buffer (R11), the pixel operations (R85, R90), the image buffer (R30, R33, R64), and ending a request with a
result or with an error (R11, R141).

An error is the block's only exception, and `raise` is all of it: "it saves no state, changes no mode and transfers no
control" (R140), and there is no trap entry (R150). There is no return from it either (R151). -/

namespace Sys2Proof.Machine

/-- The outcome of a step or of a meaning. -/
abbrev Outcome := Host.Outcome State Fault Refusal

/-! ### Bit operators (R9) -/

/-- `zext_16(v)` of a byte. -/
def zext16 (v : U8) : U16 := v.setWidth 16

/-- `trunc_8(v)` of a 16-bit value. -/
def trunc8 (v : U16) : U8 := v.setWidth 8

/-! ### The pixel operations -/

/-- R85: `unpack_r(p) = trunc_8((p & 0xF800) >> 8)`. -/
def unpackR (p : U16) : U8 := trunc8 ((p &&& 0xF800#16) >>> 8)

/-- R85: `unpack_g(p) = trunc_8((p & 0x07E0) >> 3)`. -/
def unpackG (p : U16) : U8 := trunc8 ((p &&& 0x07E0#16) >>> 3)

/-- R85: `unpack_b(p) = trunc_8((p & 0x001F) << 3)`. -/
def unpackB (p : U16) : U8 := trunc8 ((p &&& 0x001F#16) <<< 3)

/-- R85: the channel expansion of one packed pixel. -/
def unpackPixel (p : U16) : Rgb888 := ⟨unpackR p, unpackG p, unpackB p⟩

/-- R66, R90: the channel packing of three bytes, evaluated at 16 bits. -/
def packPixel (r g b : U8) : U16 :=
  ((zext16 r &&& 0x00F8#16) <<< 8) ||| ((zext16 g &&& 0x00FC#16) <<< 3) ||| (zext16 b >>> 3)

/-! ### The two bytes of a word, and the accesses of a byte buffer -/

/-- R42: the word whose bytes at the lower and the higher index are `b0` and `b1`. -/
def wordOfBytes (e : Endian) (b0 b1 : U8) : U16 :=
  match e with
  | .little => b1 ++ b0
  | .big => b0 ++ b1

/-- R42: the byte of `w` that stands at the lower index. -/
def firstByte (e : Endian) (w : U16) : U8 :=
  match e with
  | .little => w.extractLsb' 0 8
  | .big => w.extractLsb' 8 8

/-- R42: the byte of `w` that stands at the higher index. -/
def secondByte (e : Endian) (w : U16) : U8 :=
  match e with
  | .little => w.extractLsb' 8 8
  | .big => w.extractLsb' 0 8

/-- R11: `MemRead(addr, 2)` on a byte buffer, the only width a rule uses (R47). None where an index is not in the buffer;
R40: no rule forms such an index. -/
def memRead16 (e : Endian) (buf : List U8) (addr : Nat) : Option U16 :=
  match buf[addr]?, buf[addr + 1]? with
  | some b0, some b1 => some (wordOfBytes e b0 b1)
  | _, _ => none

/-- R11: `MemWrite(addr, 2, w)` on a byte buffer. -/
def memWrite16 (e : Endian) (buf : List U8) (addr : Nat) (w : U16) : List U8 :=
  (buf.set addr (firstByte e w)).set (addr + 1) (secondByte e w)

/-- The words of a byte buffer, its bytes taken in pairs (R47); an odd trailing byte is dropped (R121). -/
def wordsOfBytes (e : Endian) : List U8 → List U16
  | b0 :: b1 :: rest => wordOfBytes e b0 b1 :: wordsOfBytes e rest
  | [_] => []
  | [] => []

/-- The bytes of a word buffer, two for each word (R47). -/
def bytesOfWords (e : Endian) : List U16 → List U8
  | [] => []
  | w :: rest => firstByte e w :: secondByte e w :: bytesOfWords e rest

/-! ### Images -/

/-- The invariant of R30: "`pixels.length == width * height`". -/
def Image.wf (im : Image) : Bool := im.pixels.length == im.width * im.height

/-- R33: the pixel at column `x` and row `y`; none outside the image. -/
def Image.pixelAt (im : Image) (x y : Nat) : Option Rgb888 :=
  if x < im.width ∧ y < im.height then im.pixels[y * im.width + x]? else none

/-- R64: pixels laid out as bytes, red, green, blue. -/
def flattenPixels : List Rgb888 → List U8
  | [] => []
  | px :: rest => px.r :: px.g :: px.b :: flattenPixels rest

/-- The packed pixels of a flat byte sequence of RGB888 triples (R64, R106). Fewer than three bytes left make no pixel;
ENCODE rejects such an input before this is asked (R107). -/
def packTriples : List U8 → List U16
  | r :: g :: b :: rest => packPixel r g b :: packTriples rest
  | [_, _] => []
  | [_] => []
  | [] => []

/-! ### Ending a request -/

/-- A response with a status and no result field: what every request starts from (R12, R25). -/
def emptyResponse (status : Status) : Response :=
  { status := statusCode status, outR := none, outG := none, outB := none, outP := none, outImg := none,
    outWords := none, outBytes := none }

/-- Writes the response port and the fault record, and nothing else (R24). -/
def State.answer (s : State) (rsp : Response) (record : Option ErrorInfo) : State :=
  { s with rsp := some rsp, record := record }

/-- R11: `done`: the request ends with `STATUS = OK` and the result fields given. -/
def succeed (rsp : Response) (s : State) : Outcome :=
  .next (s.answer { rsp with status := statusCode .ok } none)

/-- R11, R141: `raise E(info)`: the request ends at once with the error's code and no result field. -/
def raise (e : ErrorInfo) (s : State) : Outcome :=
  .next (s.answer (emptyResponse (errorStatus e)) (some e))

/-! ### The ports -/

/-- A host's request is accepted at the request port, behind those accepted before it (R50). -/
def State.accept (s : State) (sender : Nat) (req : Request) : State :=
  { s with pending := s.pending ++ [{ sender := sender, req := req }] }

/-- The block takes the oldest accepted request: the number of its sender, and the state with its fields at the request
port's registers. None where no request is pending. -/
def State.fetch (s : State) : Option (Nat × State) :=
  match s.pending with
  | [] => none
  | entry :: rest => some (entry.sender, { s with pending := rest, req := entry.req })

/-- R160: reset. Pending requests are dropped without a response and the response port holds none. The parameters (R27)
and the hosts are not the block's to reset. -/
def State.resetBlock (s : State) : State :=
  { s with pending := [], req := Request.blank, rsp := none, record := none }

end Sys2Proof.Machine
end

