-- ==== Sys2Proof/Machine/Illegal.lean ====
section
/-! DEFINITION. A command byte that stands for no operation (R62, R143). -/

namespace Sys2Proof.Machine

/-- ILLEGAL (R143): `raise Illegal(CMD)`. "No other field is read." -/
def execIllegal (cmd : U8) (s : State) : Outcome := raise (.illegal cmd) s

end Sys2Proof.Machine
end

