-- ==== Sys2Proof/Machine/ImageOps.lean ====
section
/-! DEFINITION. Whole-image conversion: DECODE and ENCODE (spec/42_image.md). -/

namespace Sys2Proof.Machine

/-- DECODE (R100): the checks of R145, R146 and R144 in R148's order, then the expansion of every word, in order
(R101). -/
def execDecode (s : State) : Outcome :=
  match imageError s.params s.req.width s.req.height s.req.inWords.length (s.req.width * s.req.height) with
  | some e => raise e s
  | none =>
    succeed { emptyResponse .ok with
      outImg := some
        { width := s.req.width, height := s.req.height, pixels := s.req.inWords.map unpackPixel } } s

/-- ENCODE (R106): the same checks, for three bytes a pixel (R107), then the packing of every triple, in order. -/
def execEncode (s : State) : Outcome :=
  match imageError s.params s.req.width s.req.height s.req.inBytes.length (3 * (s.req.width * s.req.height)) with
  | some e => raise e s
  | none => succeed { emptyResponse .ok with outWords := some (packTriples s.req.inBytes) } s

end Sys2Proof.Machine
end

