-- ==== Sys2Proof/Machine/Pack.lean ====
section
/-! DEFINITION. RGB888_packer: PACK888 (spec/41_pack.md). -/

namespace Sys2Proof.Machine

/-- PACK888 (R90): the packed pixel of `req.R`, `req.G`, `req.B`. -/
def execPack888 (s : State) : Outcome :=
  succeed { emptyResponse .ok with outP := some (packPixel s.req.r s.req.g s.req.b) } s

end Sys2Proof.Machine
end

