-- ==== Sys2Proof/Machine/Reinterpret.lean ====
section
/-! DEFINITION. row_major_buffer_reinterpret: B2W and W2B (spec/43_reinterpret.md), with copy semantics (R46). -/

namespace Sys2Proof.Machine

/-- B2W (R120): the words of `req.IN_BYTES` in the byte order of `ENDIAN`; it never fails (R121). -/
def execB2w (s : State) : Outcome :=
  succeed { emptyResponse .ok with outWords := some (wordsOfBytes s.params.endian s.req.inBytes) } s

/-- W2B (R124): the bytes of `req.IN_WORDS` in the byte order of `ENDIAN`. -/
def execW2b (s : State) : Outcome :=
  succeed { emptyResponse .ok with outBytes := some (bytesOfWords s.params.endian s.req.inWords) } s

end Sys2Proof.Machine
end

