-- ==== Sys2Proof/Machine/Unpack.lean ====
section
/-! DEFINITION. RGB565_unpacker: UNPACK565 (spec/40_unpack.md). -/

namespace Sys2Proof.Machine

/-- UNPACK565 (R80): the three channels of `req.P`. -/
def execUnpack565 (s : State) : Outcome :=
  succeed { emptyResponse .ok with
    outR := some (unpackR s.req.p)
    outG := some (unpackG s.req.p)
    outB := some (unpackB s.req.p) } s

end Sys2Proof.Machine
end

