-- ==== Sys2Proof/Machine/Dispatch.lean ====
section
/-! DEFINITION. Which meaning each instruction has: one arm per row of the opcode table. -/

namespace Sys2Proof.Machine

/-- The effect of an instruction on a state whose request fields are those of the request being performed. -/
def exec (i : Instr) (s : State) : Host.Outcome State Fault Refusal :=
  match i with
  | .unpack565 => Sys2Proof.Machine.execUnpack565 s
  | .pack888 => Sys2Proof.Machine.execPack888 s
  | .decode => Sys2Proof.Machine.execDecode s
  | .encode => Sys2Proof.Machine.execEncode s
  | .b2w => Sys2Proof.Machine.execB2w s
  | .w2b => Sys2Proof.Machine.execW2b s
  | .illegal cmd => Sys2Proof.Machine.execIllegal cmd s

end Sys2Proof.Machine
end

