-- ==== Sys2Proof/Machine/Operands.lean ====
section
/-! DEFINITION. Operands: which request fields `DIM_BITS` admits (R67), reading a response field (R23, R25), the names a
host binds (R69) and the operands of its statements. -/

namespace Sys2Proof.Machine

/-! ### Request fields -/

/-- R67: both dimensions fit in `DIM_BITS` bits. -/
def dimsFit (params : Params) (w h : Nat) : Bool :=
  decide (w < 2 ^ (params.dimBits : Nat)) && decide (h < 2 ^ (params.dimBits : Nat))

/-- Can this request be put at the instance's request port (R22, R67)? -/
def Request.fits (params : Params) (req : Request) : Bool := dimsFit params req.width req.height

/-! ### Response fields -/

/-- The value a response field holds, if it holds one (R23, R25). -/
def responseValue (rsp : Response) : RspField → Option Value
  | .status => some (.status rsp.status)
  | .outR => rsp.outR.map .byte
  | .outG => rsp.outG.map .byte
  | .outB => rsp.outB.map .byte
  | .outP => rsp.outP.map .word
  | .outImg => rsp.outImg.map .image
  | .outWords => rsp.outWords.map .words
  | .outBytes => rsp.outBytes.map .bytes

/-- R25, R163: reading a response field. A field that holds no value, or any field where there is no response (R26), is
a fault. -/
def readField (rsp : Option Response) (field : RspField) : Except Fault Value :=
  match rsp.bind (fun r => responseValue r field) with
  | some v => .ok v
  | none => .error (.noValue field)

/-! ### Names bound by a host -/

/-- The value a name is bound to. -/
def lookupName : List (Nat × Value) → Nat → Option Value
  | [], _ => none
  | (m, v) :: rest, n => if m = n then some v else lookupName rest n

/-- Binds a name, in place of its former value where it has one; the list stays in rising order of name. -/
def bindName (n : Nat) (v : Value) : List (Nat × Value) → List (Nat × Value)
  | [] => [(n, v)]
  | (m, u) :: rest =>
    if n < m then (n, v) :: (m, u) :: rest
    else if n = m then (n, v) :: rest
    else (m, u) :: bindName n v rest

/-- The canonical form of bindings: names strictly rising. -/
def bindingsWf : List (Nat × Value) → Bool
  | [] => true
  | [_] => true
  | a :: b :: rest => decide (a.1 < b.1) && bindingsWf (b :: rest)

/-- R69: the optional `-> name`. -/
def HostAgent.bindTo (a : HostAgent) (dst : Option Nat) (v : Value) : HostAgent :=
  match dst with
  | none => a
  | some n => { a with bindings := bindName n v a.bindings }

/-! ### Operands of host statements (R69) -/

/-- A `<u16>` operand. -/
def wordOperand (names : List (Nat × Value)) : Operand U16 → Except Fault U16
  | .lit v => .ok v
  | .name n =>
    match lookupName names n with
    | some (.word v) => .ok v
    | _ => .error (.unboundName n)

/-- A `<u8>` operand. -/
def byteOperand (names : List (Nat × Value)) : Operand U8 → Except Fault U8
  | .lit v => .ok v
  | .name n =>
    match lookupName names n with
    | some (.byte v) => .ok v
    | _ => .error (.unboundName n)

/-- A `words=<buffer>` operand. -/
def wordsOperand (names : List (Nat × Value)) : Operand (List U16) → Except Fault (List U16)
  | .lit v => .ok v
  | .name n =>
    match lookupName names n with
    | some (.words v) => .ok v
    | _ => .error (.unboundName n)

/-- A `bytes=<buffer>` operand. -/
def bytesOperand (names : List (Nat × Value)) : Operand (List U8) → Except Fault (List U8)
  | .lit v => .ok v
  | .name n =>
    match lookupName names n with
    | some (.bytes v) => .ok v
    | _ => .error (.unboundName n)

/-- The `w=<n>` and `h=<n>` operands: a dimension that `DIM_BITS` bits cannot hold cannot be sent (R67). -/
def dimOperands (params : Params) (w h : Nat) : Except Fault (Nat × Nat) :=
  if dimsFit params w h then .ok (w, h) else .error (.dimTooWide w h)

end Sys2Proof.Machine
end

