-- ==== Sys2Proof/Machine/Hosts.lean ====
section
/-! DEFINITION. The hosts at the block's ports (R14): how a host turns a statement into a request (R69, R70), and what it
does with the response (R70, R152, R163, R167). -/

namespace Sys2Proof.Machine

/-- The request that a statement sends, and what the host then waits for. The fields the operation does not read are left
as in `Request.blank` (R22: they are ignored). -/
def requestOf (params : Params) (names : List (Nat × Value)) : HostCmd → Except Fault (Request × Waiting)
  | .unpack565 p dst => do
    let p ← wordOperand names p
    return ({ Request.blank with cmd := 0x00, p := p }, .channels dst)
  | .pack888 r g b dst => do
    let r ← byteOperand names r
    let g ← byteOperand names g
    let b ← byteOperand names b
    return ({ Request.blank with cmd := 0x01, r := r, g := g, b := b }, .pixel dst)
  | .decode w h words dst => do
    let (w, h) ← dimOperands params w h
    let ws ← wordsOperand names words
    return ({ Request.blank with cmd := 0x02, width := w, height := h, inWords := ws }, .image dst)
  | .encode w h bytes dst => do
    let (w, h) ← dimOperands params w h
    let bs ← bytesOperand names bytes
    return ({ Request.blank with cmd := 0x03, width := w, height := h, inBytes := bs }, .words dst)
  | .b2w bytes dst => do
    let bs ← bytesOperand names bytes
    return ({ Request.blank with cmd := 0x04, inBytes := bs }, .words dst)
  | .w2b words dst => do
    let ws ← wordsOperand names words
    return ({ Request.blank with cmd := 0x05, inWords := ws }, .bytes dst)
  | .rawDecode w h bytes dst => do
    let bs ← bytesOperand names bytes
    return ({ Request.blank with cmd := 0x04, inBytes := bs }, .thenDecode w h dst)
  | .rawEncode w h bytes dst => do
    let (w, h) ← dimOperands params w h
    let bs ← bytesOperand names bytes
    return ({ Request.blank with cmd := 0x03, width := w, height := h, inBytes := bs }, .thenW2b dst)
  | .raw req => do
    let _ ← dimOperands params req.width req.height
    return (req, .status)

/-- Continues with the value of a result field; a field that holds none is a fault (R163). -/
def withResult {α : Type} (value : Option α) (field : RspField) (k : α → Host.Outcome HostAgent Fault Refusal) :
    Host.Outcome HostAgent Fault Refusal :=
  match value with
  | some v => k v
  | none => .fault (.noValue field)

/-- A host takes the results of a response whose `STATUS` is `OK`: it binds what its statement asked for (R69), displays
the image of a DECODE (R167), or puts the second request of a macro next (R70).

DESIGN CHOICE, unsafe (log entry 21): the macros' intermediate name `t` (R70, R108) is bound to nothing; the words go into
the second request as a literal. DESIGN CHOICE, unsafe (log entry 22): UNPACK565's names are bound in the order red, green,
blue, so of a name written twice (R69) the later channel stays. DEDUCED, unsafe (log entry 10): every image is displayed. -/
def takeResult (rsp : Response) (a : HostAgent) : Waiting → Host.Outcome HostAgent Fault Refusal
  | .status => .next a
  | .channels dst =>
    withResult rsp.outR .outR fun r =>
    withResult rsp.outG .outG fun g =>
    withResult rsp.outB .outB fun b =>
    match dst with
    | none => .next a
    | some (nr, ng, nb) =>
      .next (((a.bindTo (some nr) (.byte r)).bindTo (some ng) (.byte g)).bindTo (some nb) (.byte b))
  | .pixel dst => withResult rsp.outP .outP fun p => .next (a.bindTo dst (.word p))
  | .image dst =>
    withResult rsp.outImg .outImg fun im => .next { a.bindTo dst (.image im) with display := some im }
  | .words dst => withResult rsp.outWords .outWords fun ws => .next (a.bindTo dst (.words ws))
  | .bytes dst => withResult rsp.outBytes .outBytes fun bs => .next (a.bindTo dst (.bytes bs))
  | .thenDecode w h dst =>
    withResult rsp.outWords .outWords fun ws => .next
      { a with program := .send (.decode w h (.lit ws) dst) :: a.program }
  | .thenW2b dst =>
    withResult rsp.outWords .outWords fun ws => .next
      { a with program := .send (.w2b (.lit ws) dst) :: a.program }

/-- A host gets the response to its request. It keeps it as its latest, and takes results only where `STATUS` is `OK`
(R163); after a failed request "the host keeps its previous results unchanged" (R167), and a macro whose first request
failed sends no second (R70). -/
def receive (rsp : Response) (a : HostAgent) : Host.Outcome HostAgent Fault Refusal :=
  let got := { a with last := some rsp, waiting := none }
  match statusOfCode rsp.status with
  | none => .refused (.reservedStatus rsp.status)
  | some .ok => takeResult rsp got (a.waiting.getD .status)
  | some .length => .next got
  | some .dim => .next got
  | some .illegal => .next got
  | some .capacity => .next got

/-- Writes host `n` back. -/
def State.setHost (s : State) (n : Nat) (a : HostAgent) : State := { s with hosts := s.hosts.set n a }

/-- The response port's response reaches host `n`; a host that the state does not hold is not followed. -/
def deliver (n : Nat) (s : State) : Outcome :=
  match s.hosts[n]?, s.rsp with
  | some a, some rsp =>
    match receive rsp a with
    | .next a' => .next (s.setHost n a')
    | .fault f => .fault f
    | .refused r => .refused r
  | _, _ => .next s

/-- Host `n` runs one statement. A host that waits for a response, has run its program, or is not held by the state, does
nothing: the requests of one host are performed "one at a time, in the order sent" (R50). -/
def hostMove (n : Nat) (s : State) : Outcome :=
  match s.hosts[n]? with
  | none => .next s
  | some a =>
    match a.waiting, a.program with
    | none, .read field dst :: rest =>
      match readField a.last field with
      | .ok v => .next (s.setHost n ({ a with program := rest }.bindTo dst v))
      | .error f => .fault f
    | none, .send cmd :: rest =>
      match requestOf s.params a.bindings cmd with
      | .ok (req, wait) => .next ((s.setHost n { a with program := rest, waiting := some wait }).accept n req)
      | .error f => .fault f
    | _, _ => .next s

end Sys2Proof.Machine
end

