-- ==== Sys2Proof/Machine/Moves.lean ====
section
/-! DEFINITION. The block's own move: it performs the oldest accepted request in one atomic step (R168), and its response
goes to the host that sent it. -/

namespace Sys2Proof.Machine

/-- The instruction the request fields stand for: the decoding of the command byte (R60). -/
def State.instr (s : State) : Instr := decodeCommand s.req.cmd

/-- The block performs the oldest accepted request and its sender gets the response. With no request pending the block
does nothing: "What runs next is chosen by the host" (R21). -/
def blockMove (s : State) : Outcome :=
  match s.fetch with
  | none => .next s
  | some (sender, loaded) =>
    match exec loaded.instr loaded with
    | .next answered => deliver sender answered
    | .fault f => .fault f
    | .refused r => .refused r

end Sys2Proof.Machine
end

