-- ==== Sys2Proof/Machine/Step.lean ====
section
/-! DEFINITION. One step of the system: the move that `moves` lists next. -/

namespace Sys2Proof.Machine

/-- One step: the next move is taken off `moves` and made. Where none is listed, the block moves (log entry 5). -/
def step (s : State) : Host.Outcome State Fault Refusal :=
  match s.moves with
  | [] => blockMove s
  | .block :: rest => blockMove { s with moves := rest }
  | .host n :: rest => hostMove n { s with moves := rest }
  | .reset :: rest => .next { s with moves := rest }.resetBlock

/-- The state in which the very next step performs a request whose command byte is `w`: the block moves next, and the
oldest accepted request has that command byte and, for its other fields, those that stand in `req`. Its sender is no host
of the state, so nobody waits for its response. The block fetches nothing (R21); a request from outside stands for the
fetch (log entry 4). Every command is 8 bits (R68). -/
def State.withFetchWord (s : State) (nbits w : Nat) : State :=
  { s with
    moves := .block :: s.moves
    pending :=
      { sender := s.hosts.length, req := { s.req with cmd := BitVec.ofNat 8 (w % 2 ^ nbits) } } :: s.pending }

end Sys2Proof.Machine
end

