-- ==== Sys2Proof/Safety.lean ====
section
/-! DEFINITION. What a safe run is: the invariant of the system, in the terms the claims use, and the runs. -/

namespace Sys2Proof.Machine

/-! ### The values that stand at the response port -/

/-- No result field holds a value (R25). -/
def noResults (rsp : Response) : Bool :=
  rsp.outR.isNone && rsp.outG.isNone && rsp.outB.isNone && rsp.outP.isNone && rsp.outImg.isNone &&
    rsp.outWords.isNone && rsp.outBytes.isNone

/-- An image that an operation can make: R30's invariant, and positive dimensions (R145). -/
def goodImage (im : Image) : Bool := im.wf && decide (0 < im.width) && decide (0 < im.height)

/-- Exactly the result fields that R23 lists for one operation hold a value, and an image is a good one. -/
def resultsOfOneOperation (rsp : Response) : Bool :=
  match rsp.outR, rsp.outG, rsp.outB, rsp.outP, rsp.outImg, rsp.outWords, rsp.outBytes with
  | some _, some _, some _, none, none, none, none => true
  | none, none, none, some _, none, none, none => true
  | none, none, none, none, some im, none, none => goodImage im
  | none, none, none, none, none, some _, none => true
  | none, none, none, none, none, none, some _ => true
  | _, _, _, _, _, _, _ => false

/-- A response that R23, R25 and R142 allow: `OK` with the results of one operation, or the code of an error with no
result. -/
def goodResponse (rsp : Response) : Bool :=
  match statusOfCode rsp.status with
  | some .ok => resultsOfOneOperation rsp
  | some .length => noResults rsp
  | some .dim => noResults rsp
  | some .illegal => noResults rsp
  | some .capacity => noResults rsp
  | none => false

/-- The fault record agrees with the response port: the error whose code stands in `STATUS`, or none (R141). -/
def recordAgrees (rsp : Option Response) (record : Option ErrorInfo) : Bool :=
  match rsp, record with
  | none, none => true
  | none, some _ => false
  | some r, none => r.status == statusCode .ok
  | some r, some e => r.status == statusCode (errorStatus e)

/-! ### The terms of R22 and R23 -/

/-- A response with a status code and no result field. -/
def bareResponse (code : U3) : Response :=
  { status := code, outR := none, outG := none, outB := none, outP := none, outImg := none, outWords := none,
    outBytes := none }

/-- R23: the result fields that an operation writes where it succeeds. -/
def resultFields : Instr → List RspField
  | .unpack565 => [.outR, .outG, .outB]
  | .pack888 => [.outP]
  | .decode => [.outImg]
  | .encode => [.outWords]
  | .b2w => [.outWords]
  | .w2b => [.outBytes]
  | .illegal _ => []

/-- R22: two requests agree on the operand fields that an operation reads. -/
def operandsAgree (q q' : Request) : Instr → Bool
  | .unpack565 => q.p == q'.p
  | .pack888 => q.r == q'.r && q.g == q'.g && q.b == q'.b
  | .decode => q.width == q'.width && q.height == q'.height && q.inWords == q'.inWords
  | .encode => q.width == q'.width && q.height == q'.height && q.inBytes == q'.inBytes
  | .b2w => q.inBytes == q'.inBytes
  | .w2b => q.inWords == q'.inWords
  | .illegal _ => true

/-- `n` pixels are within `MAX_PIXELS` (R146). -/
def withinCapacity (params : Params) (n : Nat) : Prop :=
  ∀ limit : ℕ+, params.maxPixels = some limit → n ≤ limit

/-- `n` pixels exceed a `MAX_PIXELS` that is not `unbounded` (R146). -/
def exceedsCapacity (params : Params) (n : Nat) : Prop :=
  ∃ limit : ℕ+, params.maxPixels = some limit ∧ (limit : Nat) < n

/-! ### The hosts -/

/-- A value a host holds is one a response can give: an image has its invariant, a status is not reserved. -/
def goodValue : Value → Bool
  | .status code => (statusOfCode code).isSome
  | .byte _ => true
  | .word _ => true
  | .words _ => true
  | .bytes _ => true
  | .image im => im.wf

/-- A host whose bindings are in canonical form and whose values, latest response and display are good. -/
def goodHost (a : HostAgent) : Bool :=
  bindingsWf a.bindings && a.bindings.all (fun nv => goodValue nv.2) && a.last.all goodResponse && a.display.all Image.wf

/-- The wait of a host fits the instruction whose response it waits for: the response has the fields it will take. -/
def waitFits : Waiting → Instr → Bool
  | .status, _ => true
  | .channels _, i => i == .unpack565
  | .pixel _, i => i == .pack888
  | .image _, i => i == .decode
  | .words _, i => i == .encode || i == .b2w
  | .bytes _, i => i == .w2b
  | .thenDecode _ _ _, i => i == .b2w
  | .thenW2b _, i => i == .encode

/-- A pending request whose sender, where the state holds it, waits for exactly that request's response. -/
def senderWaits (hosts : List HostAgent) (entry : Pending) : Bool :=
  match hosts[entry.sender]? with
  | none => true
  | some a =>
    match a.waiting with
    | none => false
    | some w => waitFits w (decodeCommand entry.req.cmd)

/-! ### The invariant -/

/-- The invariant of the system. -/
structure State.Inv (s : State) : Prop where
  /-- Every request at the port has dimensions that `DIM_BITS` bits hold (R67). -/
  requests_fit : ∀ entry ∈ s.pending, entry.req.fits s.params = true
  /-- The response port holds no response, or a good one (R23, R25, R34, R142). -/
  response_good : ∀ rsp, s.rsp = some rsp → goodResponse rsp = true
  /-- The fault record is that of the response (R141). -/
  record_agrees : recordAgrees s.rsp s.record = true
  /-- Every host is good. -/
  hosts_good : ∀ a ∈ s.hosts, goodHost a = true
  /-- Every pending request of a host in the state is the one the host waits for (R50). -/
  senders_wait : ∀ entry ∈ s.pending, senderWaits s.hosts entry = true
  /-- A host in the state has at most one request pending (R50: "one at a time"). -/
  one_at_a_time : s.pending.Pairwise (fun a b => a.sender = b.sender → s.hosts.length ≤ a.sender)

/-! ### Runs -/

/-- `Reaches s t`: some number of steps lead from `s` to `t`, none of them a fault or a refusal. -/
inductive Reaches (s : State) : State → Prop where
  | refl : Reaches s s
  | tail (t u : State) (run : Reaches s t) (last : step t = .next u) : Reaches s u

/-- The block is the next to move. -/
def State.blockNext (s : State) : Bool :=
  match s.moves with
  | [] => true
  | .block :: _ => true
  | .host _ :: _ => false
  | .reset :: _ => false

end Sys2Proof.Machine
end

