-- ==== Sys2Proof/Certificates/Slice0/Obligations.lean ====
section
/-! DEFINITION. The statements for the provers. Each docstring names the rule or the section of spec/ it comes from, and
the model's own choices it rests on. A next state is written out as the state before with the fields that change, so
that each statement of a result is the instruction's frame as well: every field not named is unchanged. -/

open Sys2Proof Sys2Proof.Machine

/-! ### The command byte -/

/-- R61: the byte of each operation, the match being on the whole byte, and the two reserved selectors. -/
def Obligations.CommandBytesOfTheTable : Prop :=
  (∀ c : U8,
    (decodeCommand c = .unpack565 ↔ c = 0x00) ∧ (decodeCommand c = .pack888 ↔ c = 0x01) ∧
    (decodeCommand c = .decode ↔ c = 0x02) ∧ (decodeCommand c = .encode ↔ c = 0x03) ∧
    (decodeCommand c = .b2w ↔ c = 0x04) ∧ (decodeCommand c = .w2b ↔ c = 0x05)) ∧
  decodeCommand 0x06 = .illegal 0x06 ∧ decodeCommand 0x07 = .illegal 0x07

/-- R62, R143: exactly the bytes with `OP` 110 or 111 or a non-zero `RSV` are illegal; each byte is the command of one
well-formed instruction; and an illegal command ends with `Illegal` (code 3) whatever the other request fields `q` hold. -/
def Obligations.IllegalCommands : Prop :=
  (∀ c : U8, decodeCommand c = .illegal c ↔
    (c.extractLsb' 0 3 = 0b110#3 ∨ c.extractLsb' 0 3 = 0b111#3 ∨ c.extractLsb' 3 5 ≠ 0#5)) ∧
  (∀ c : U8, (decodeCommand c).wellFormed = true ∧ encodeCommand (decodeCommand c) = c) ∧
  (∀ (c : U8) (s : State) (q : Request), exec (.illegal c) { s with req := q } =
    .next { s with req := q, rsp := some (bareResponse 3), record := some (.illegal c) })

/-- spec/30_encoding.md sections 1 and 5: the encoder and the decoder agree on every well-formed instruction, whatever
bytes follow its one command byte, and as a word of the opcode table. -/
def Obligations.DecodeOfEncode : Prop :=
  ∀ (i : Instr) (rest : List U8), i.wellFormed = true →
    decodeBytes (encodeCommand i :: rest) = .ok (i, rest) ∧
    decodeTableWord 8 (encodeCommand i).toNat = some i

/-! ### UNPACK565 -/

/-- R80: UNPACK565 has command byte `0x00` and ends with `OK` and the three channels by the source's masks and shifts,
whose low bits are zero. -/
def Obligations.UnpackAnswersChannels : Prop :=
  encodeCommand .unpack565 = 0x00 ∧
  ∀ s : State,
    exec .unpack565 s = .next { s with
      rsp := some { bareResponse 0 with
        outR := some (((s.req.p &&& 0xF800#16) >>> 8).setWidth 8)
        outG := some (((s.req.p &&& 0x07E0#16) >>> 3).setWidth 8)
        outB := some (((s.req.p &&& 0x001F#16) <<< 3).setWidth 8) }
      record := none } ∧
    ((s.req.p &&& 0xF800#16) >>> 8).setWidth 8 &&& 0x07#8 = 0#8 ∧
    ((s.req.p &&& 0x07E0#16) >>> 3).setWidth 8 &&& 0x03#8 = 0#8 ∧
    ((s.req.p &&& 0x001F#16) <<< 3).setWidth 8 &&& 0x07#8 = 0#8

/-- R82: the channels take exactly the values `8k` for `k < 32` (red, blue) and `4k` for `k < 64` (green). -/
def Obligations.ChannelValueSets : Prop :=
  (∀ s : State, ∃ kr kg kb : Nat, kr < 32 ∧ kg < 64 ∧ kb < 32 ∧
    exec .unpack565 s = .next { s with
      rsp := some { bareResponse 0 with
        outR := some (BitVec.ofNat 8 (8 * kr)), outG := some (BitVec.ofNat 8 (4 * kg)),
        outB := some (BitVec.ofNat 8 (8 * kb)) }
      record := none }) ∧
  (∀ (s : State) (kr kg kb : Nat), kr < 32 → kg < 64 → kb < 32 → ∃ p : U16,
    exec .unpack565 { s with req := { s.req with p := p } } = .next { s with
      req := { s.req with p := p }
      rsp := some { bareResponse 0 with
        outR := some (BitVec.ofNat 8 (8 * kr)), outG := some (BitVec.ofNat 8 (4 * kg)),
        outB := some (BitVec.ofNat 8 (8 * kb)) }
      record := none })

/-- spec/40_unpack.md (the left-shift form) and spec/30_encoding.md section 2: a pixel whose fields are `r5`, `g6`, `b5`
expands to each field in the top of its byte, with zeros below. -/
def Obligations.ChannelsAreShiftedFields : Prop :=
  ∀ (s : State) (r5 : BitVec 5) (g6 : BitVec 6) (b5 : BitVec 5), s.req.p = r5 ++ g6 ++ b5 →
    exec .unpack565 s = .next { s with
      rsp := some { bareResponse 0 with
        outR := some (r5 ++ 0#3), outG := some (g6 ++ 0#2), outB := some (b5 ++ 0#3) }
      record := none }

/-! ### PACK888 -/

/-- R90: PACK888 has command byte `0x01` and ends with `OK` and the pixel of the source's formula, evaluated at 16 bits;
the three terms do not overlap, so their sum is the same. -/
def Obligations.PackAnswersPixel : Prop :=
  encodeCommand .pack888 = 0x01 ∧
  ∀ s : State,
    exec .pack888 s = .next { s with
      rsp := some { bareResponse 0 with
        outP := some (((s.req.r.setWidth 16 &&& 0x00F8#16) <<< 8) ||| ((s.req.g.setWidth 16 &&& 0x00FC#16) <<< 3) |||
          (s.req.b.setWidth 16 >>> 3)) }
      record := none } ∧
    ((s.req.r.setWidth 16 &&& 0x00F8#16) <<< 8) ||| ((s.req.g.setWidth 16 &&& 0x00FC#16) <<< 3) |||
        (s.req.b.setWidth 16 >>> 3) =
      ((s.req.r.setWidth 16 &&& 0x00F8#16) <<< 8) + ((s.req.g.setWidth 16 &&& 0x00FC#16) <<< 3) +
        (s.req.b.setWidth 16 >>> 3)

/-- spec/41_pack.md (where each channel lands): the top bits of the channels are the fields of the pixel, and their low
bits `x`, `y`, `z` do not affect the result. -/
def Obligations.PackKeepsTopBits : Prop :=
  ∀ (s : State) (r5 : BitVec 5) (g6 : BitVec 6) (b5 : BitVec 5) (x : BitVec 3) (y : BitVec 2) (z : BitVec 3),
    s.req.r = r5 ++ x → s.req.g = g6 ++ y → s.req.b = b5 ++ z →
    exec .pack888 s = .next { s with
      rsp := some { bareResponse 0 with outP := some (r5 ++ g6 ++ b5) }
      record := none }

/-- R92: the lossy masking law, and that the round trip is the identity exactly on triples whose discarded bits are
zero. -/
def Obligations.LossyMaskingLaw : Prop :=
  ∀ s : State, ∃ p : U16,
    exec .pack888 s = .next { s with rsp := some { bareResponse 0 with outP := some p }, record := none } ∧
    (∀ s' : State, s'.req.p = p → exec .unpack565 s' = .next { s' with
      rsp := some { bareResponse 0 with
        outR := some (s.req.r &&& 0xF8#8), outG := some (s.req.g &&& 0xFC#8), outB := some (s.req.b &&& 0xF8#8) }
      record := none }) ∧
    ((s.req.r &&& 0xF8#8 = s.req.r ∧ s.req.g &&& 0xFC#8 = s.req.g ∧ s.req.b &&& 0xF8#8 = s.req.b) ↔
      (s.req.r &&& 0x07#8 = 0#8 ∧ s.req.g &&& 0x03#8 = 0#8 ∧ s.req.b &&& 0x07#8 = 0#8))

/-- spec/41_pack.md (the other round trip) and spec/40_unpack.md (expansion loses no information): packing the expansion of
a pixel gives the pixel. -/
def Obligations.RepackingIsIdentity : Prop :=
  ∀ s : State, ∃ r g b : U8,
    exec .unpack565 s = .next { s with
      rsp := some { bareResponse 0 with outR := some r, outG := some g, outB := some b }
      record := none } ∧
    ∀ s' : State, s'.req.r = r → s'.req.g = g → s'.req.b = b →
      exec .pack888 s' = .next { s' with
        rsp := some { bareResponse 0 with outP := some s.req.p }
        record := none }

/-! ### DECODE -/

/-- R100: DECODE on every request: the three errors in their order, and where none applies an image of the request's
dimensions whose pixel `i` is the expansion of word `i`. -/
def Obligations.DecodeFollowsPseudocode : Prop :=
  encodeCommand .decode = 0x02 ∧
  ∀ s : State,
    ((s.req.width = 0 ∨ s.req.height = 0) →
      exec .decode s = .next { s with
        rsp := some (bareResponse 2), record := some (.dim s.req.width s.req.height) }) ∧
    (0 < s.req.width → 0 < s.req.height → exceedsCapacity s.params (s.req.width * s.req.height) →
      exec .decode s = .next { s with
        rsp := some (bareResponse 4), record := some (.capacity (s.req.width * s.req.height)) }) ∧
    (0 < s.req.width → 0 < s.req.height → withinCapacity s.params (s.req.width * s.req.height) →
      s.req.inWords.length ≠ s.req.width * s.req.height →
      exec .decode s = .next { s with
        rsp := some (bareResponse 1),
        record := some (.length s.req.inWords.length (s.req.width * s.req.height)) }) ∧
    (0 < s.req.width → 0 < s.req.height → withinCapacity s.params (s.req.width * s.req.height) →
      s.req.inWords.length = s.req.width * s.req.height →
      ∃ img : Image,
        exec .decode s = .next { s with rsp := some { bareResponse 0 with outImg := some img }, record := none } ∧
        img.width = s.req.width ∧ img.height = s.req.height ∧
        img.pixels.length = s.req.width * s.req.height ∧
        ∀ (i : Nat) (p : U16), s.req.inWords[i]? = some p → img.pixels[i]? = some
          { r := ((p &&& 0xF800#16) >>> 8).setWidth 8
            g := ((p &&& 0x07E0#16) >>> 3).setWidth 8
            b := ((p &&& 0x001F#16) <<< 3).setWidth 8 })

/-- R101: DECODE keeps the order of the pixels: pixel `i` is the expansion of word `i`, and the pixel at column `x`, row
`y` comes from word `y*W + x`. -/
def Obligations.DecodeKeepsRowMajorOrder : Prop :=
  ∀ (s t : State) (r : Response) (img : Image),
    exec .decode s = .next t → t.rsp = some r → r.outImg = some img →
    (∀ i, i < s.req.width * s.req.height →
      ∃ p, s.req.inWords[i]? = some p ∧ img.pixels[i]? = some (unpackPixel p)) ∧
    (∀ x y, x < s.req.width → y < s.req.height →
      ∃ p, s.req.inWords[y * s.req.width + x]? = some p ∧ img.pixelAt x y = some (unpackPixel p))

/-- R102: every `OUT_IMG` that DECODE gives meets the image buffer invariant, and for positive dimensions within capacity
DECODE always gives one on `W*H` words. -/
def Obligations.DecodeMeetsImageInvariant : Prop :=
  (∀ (s t : State) (r : Response) (img : Image),
    exec .decode s = .next t → t.rsp = some r → r.outImg = some img →
    img.pixels.length = img.width * img.height ∧ img.width * img.height = s.req.inWords.length) ∧
  (∀ s : State, 1 ≤ s.req.width → 1 ≤ s.req.height → withinCapacity s.params (s.req.width * s.req.height) →
    s.req.inWords.length = s.req.width * s.req.height →
    ∃ img : Image,
      exec .decode s = .next { s with rsp := some { bareResponse 0 with outImg := some img }, record := none } ∧
      img.pixels.length = s.req.width * s.req.height)

/-- R103: where DECODE fails it writes no `OUT_IMG` and no other result, and it fails on every wrong word count: no prefix,
no padding, no cropping. -/
def Obligations.DecodeFailsWhole : Prop :=
  ∀ s : State,
    (∀ (t : State) (r : Response), exec .decode s = .next t → t.rsp = some r → r.status ≠ 0 → r = bareResponse r.status) ∧
    (s.req.inWords.length ≠ s.req.width * s.req.height →
      ∃ (code : U3) (e : ErrorInfo), code ≠ 0 ∧
        exec .decode s = .next { s with rsp := some (bareResponse code), record := some e })

/-! ### ENCODE -/

/-- R106: ENCODE on every request: the three errors in their order, and where none applies word `i` is the packing of
bytes `3i`, `3i+1`, `3i+2`. -/
def Obligations.EncodeFollowsPseudocode : Prop :=
  encodeCommand .encode = 0x03 ∧
  ∀ s : State,
    ((s.req.width = 0 ∨ s.req.height = 0) →
      exec .encode s = .next { s with
        rsp := some (bareResponse 2), record := some (.dim s.req.width s.req.height) }) ∧
    (0 < s.req.width → 0 < s.req.height → exceedsCapacity s.params (s.req.width * s.req.height) →
      exec .encode s = .next { s with
        rsp := some (bareResponse 4), record := some (.capacity (s.req.width * s.req.height)) }) ∧
    (0 < s.req.width → 0 < s.req.height → withinCapacity s.params (s.req.width * s.req.height) →
      s.req.inBytes.length ≠ 3 * (s.req.width * s.req.height) →
      exec .encode s = .next { s with
        rsp := some (bareResponse 1),
        record := some (.length s.req.inBytes.length (3 * (s.req.width * s.req.height))) }) ∧
    (0 < s.req.width → 0 < s.req.height → withinCapacity s.params (s.req.width * s.req.height) →
      s.req.inBytes.length = 3 * (s.req.width * s.req.height) →
      ∃ ws : List U16,
        exec .encode s = .next { s with rsp := some { bareResponse 0 with outWords := some ws }, record := none } ∧
        ws.length = s.req.width * s.req.height ∧
        ∀ (i : Nat) (r g b : U8), s.req.inBytes[3 * i]? = some r → s.req.inBytes[3 * i + 1]? = some g →
          s.req.inBytes[3 * i + 2]? = some b →
          ws[i]? = some (((r.setWidth 16 &&& 0x00F8#16) <<< 8) ||| ((g.setWidth 16 &&& 0x00FC#16) <<< 3) |||
            (b.setWidth 16 >>> 3)))

/-- R107: ENCODE rejects every input of the wrong length with `Length` (R148: where neither `Dim` nor `Capacity`
applies), and never answers `OK` on one. -/
def Obligations.EncodeRejectsWrongLength : Prop :=
  ∀ s : State, s.req.inBytes.length ≠ 3 * (s.req.width * s.req.height) →
    (0 < s.req.width → 0 < s.req.height → withinCapacity s.params (s.req.width * s.req.height) →
      exec .encode s = .next { s with
        rsp := some (bareResponse 1),
        record := some (.length s.req.inBytes.length (3 * (s.req.width * s.req.height))) }) ∧
    (∃ (code : U3) (e : ErrorInfo), code ≠ 0 ∧
      exec .encode s = .next { s with rsp := some (bareResponse code), record := some e })

/-- R64: pixel `k` of a pixel sequence laid out as bytes takes bytes `3k`, `3k+1`, `3k+2`, in the order red, green, blue;
ENCODE reads the same layout: on the bytes of `W*H` pixels it gives the packing of each. -/
def Obligations.FlatLayoutIsRedGreenBlue : Prop :=
  (∀ (ps : List Rgb888) (k : Nat) (px : Rgb888), ps[k]? = some px →
    (flattenPixels ps)[3 * k]? = some px.r ∧ (flattenPixels ps)[3 * k + 1]? = some px.g ∧
      (flattenPixels ps)[3 * k + 2]? = some px.b) ∧
  (∀ (s : State) (ps : List Rgb888), s.req.inBytes = flattenPixels ps →
    ps.length = s.req.width * s.req.height → 0 < s.req.width → 0 < s.req.height →
    withinCapacity s.params (s.req.width * s.req.height) →
    exec .encode s = .next { s with
      rsp := some { bareResponse 0 with outWords := some (ps.map (fun px => packPixel px.r px.g px.b)) }
      record := none })

/-! ### Laws between DECODE and ENCODE -/

/-- spec/42_image.md section 3, first law: decoding what ENCODE gives succeeds and masks the bytes. -/
def Obligations.DecodeOfEncodedImage : Prop :=
  ∀ s : State, 1 ≤ s.req.width → 1 ≤ s.req.height → withinCapacity s.params (s.req.width * s.req.height) →
    s.req.inBytes.length = 3 * (s.req.width * s.req.height) →
    ∃ ws : List U16,
      exec .encode s = .next { s with rsp := some { bareResponse 0 with outWords := some ws }, record := none } ∧
      ∀ s' : State, s'.params = s.params → s'.req.width = s.req.width → s'.req.height = s.req.height →
        s'.req.inWords = ws →
        ∃ img : Image,
          exec .decode s' = .next { s' with rsp := some { bareResponse 0 with outImg := some img }, record := none } ∧
          img.width = s.req.width ∧ img.height = s.req.height ∧
          img.pixels.length = s.req.width * s.req.height ∧
          ∀ (i : Nat) (r g b : U8), s.req.inBytes[3 * i]? = some r → s.req.inBytes[3 * i + 1]? = some g →
            s.req.inBytes[3 * i + 2]? = some b →
            img.pixels[i]? = some { r := r &&& 0xF8#8, g := g &&& 0xFC#8, b := b &&& 0xF8#8 }

/-- spec/42_image.md section 3, second law: encoding the flattened pixels of what DECODE gives is the words again. -/
def Obligations.EncodeOfDecodedImage : Prop :=
  ∀ s : State, 1 ≤ s.req.width → 1 ≤ s.req.height → withinCapacity s.params (s.req.width * s.req.height) →
    s.req.inWords.length = s.req.width * s.req.height →
    ∃ img : Image,
      exec .decode s = .next { s with rsp := some { bareResponse 0 with outImg := some img }, record := none } ∧
      ∀ s' : State, s'.params = s.params → s'.req.width = s.req.width → s'.req.height = s.req.height →
        s'.req.inBytes = flattenPixels img.pixels →
        exec .encode s' = .next { s' with
          rsp := some { bareResponse 0 with outWords := some s.req.inWords }
          record := none }

/-! ### B2W and W2B -/

/-- R42: a read and a write of two bytes, in both byte orders; a write leaves every other byte as it was. -/
def Obligations.BytePairAccesses : Prop :=
  ∀ (e : Endian) (buf : List U8) (i : Nat) (b0 b1 : U8) (w : U16),
    buf[2 * i]? = some b0 → buf[2 * i + 1]? = some b1 →
    memRead16 e buf (2 * i) = some (if e = .little then b1 ++ b0 else b0 ++ b1) ∧
    (memWrite16 e buf (2 * i) w)[2 * i]? =
      some (if e = .little then w.extractLsb' 0 8 else w.extractLsb' 8 8) ∧
    (memWrite16 e buf (2 * i) w)[2 * i + 1]? =
      some (if e = .little then w.extractLsb' 8 8 else w.extractLsb' 0 8) ∧
    ∀ k, k ≠ 2 * i → k ≠ 2 * i + 1 → (memWrite16 e buf (2 * i) w)[k]? = buf[k]?

/-- R120: B2W has command byte `0x04`, never fails, and gives `L / 2` words, word `i` being `MemRead(2i, 2)`. -/
def Obligations.B2wAnswersWords : Prop :=
  encodeCommand .b2w = 0x04 ∧
  ∀ s : State, ∃ ws : List U16,
    exec .b2w s = .next { s with rsp := some { bareResponse 0 with outWords := some ws }, record := none } ∧
    ws.length = s.req.inBytes.length / 2 ∧
    ∀ i, i < s.req.inBytes.length / 2 →
      (∃ w, memRead16 s.params.endian s.req.inBytes (2 * i) = some w ∧ ws[i]? = some w) ∧
      ∀ b0 b1 : U8, s.req.inBytes[2 * i]? = some b0 → s.req.inBytes[2 * i + 1]? = some b1 →
        ws[i]? = some (if s.params.endian = .little then b1 ++ b0 else b0 ++ b1)

/-- R121: B2W drops an odd trailing byte `b` and raises no error: a buffer of length `2n+1` gives exactly `n` words, those
it gives without `b`. -/
def Obligations.B2wDropsOddByte : Prop :=
  ∀ (s : State) (pre : List U8) (b : U8) (n : Nat), s.req.inBytes = pre ++ [b] → pre.length = 2 * n →
    ∃ ws : List U16, ws.length = n ∧
      exec .b2w s = .next { s with rsp := some { bareResponse 0 with outWords := some ws }, record := none } ∧
      exec .b2w { s with req := { s.req with inBytes := pre } } = .next { s with
        req := { s.req with inBytes := pre }
        rsp := some { bareResponse 0 with outWords := some ws }
        record := none }

/-- R124: W2B has command byte `0x05`, never fails, and gives what the loop of `MemWrite`s leaves of any `2n` bytes. -/
def Obligations.W2bIsItsLoopOfWrites : Prop :=
  encodeCommand .w2b = 0x05 ∧
  ∀ (s : State) (start : List U8), start.length = 2 * s.req.inWords.length →
    exec .w2b s = .next { s with
      rsp := some { bareResponse 0 with
        outBytes := some (s.req.inWords.zipIdx.foldl
          (fun buf wi => memWrite16 s.params.endian buf (2 * wi.2) wi.1) start) }
      record := none }

/-- spec/43_reinterpret.md section 2: W2B gives two bytes for each word, in the byte order of `ENDIAN`. -/
def Obligations.W2bBytesOfEachWord : Prop :=
  ∀ s : State, ∃ bs : List U8,
    exec .w2b s = .next { s with rsp := some { bareResponse 0 with outBytes := some bs }, record := none } ∧
    bs.length = 2 * s.req.inWords.length ∧
    ∀ (i : Nat) (w : U16), s.req.inWords[i]? = some w →
      bs[2 * i]? = some (if s.params.endian = .little then w.extractLsb' 0 8 else w.extractLsb' 8 8) ∧
      bs[2 * i + 1]? = some (if s.params.endian = .little then w.extractLsb' 8 8 else w.extractLsb' 0 8)

/-- spec/43_reinterpret.md section 3: with one byte order, B2W of W2B is the words, and W2B of B2W is the bytes less an odd
trailing one. -/
def Obligations.ViewsAreInverse : Prop :=
  (∀ s : State, ∃ bs : List U8,
    exec .w2b s = .next { s with rsp := some { bareResponse 0 with outBytes := some bs }, record := none } ∧
    ∀ s' : State, s'.params.endian = s.params.endian → s'.req.inBytes = bs →
      exec .b2w s' = .next { s' with
        rsp := some { bareResponse 0 with outWords := some s.req.inWords }, record := none }) ∧
  (∀ s : State, ∃ ws : List U16,
    exec .b2w s = .next { s with rsp := some { bareResponse 0 with outWords := some ws }, record := none } ∧
    ∀ s' : State, s'.params.endian = s.params.endian → s'.req.inWords = ws →
      exec .w2b s' = .next { s' with
        rsp := some { bareResponse 0 with
          outBytes := some (s.req.inBytes.take (2 * (s.req.inBytes.length / 2))) }
        record := none })

/-- spec/43_reinterpret.md section 3 and spec/20_memory.md section 2: W2B on one instance and B2W on another with the other
byte order give every word with its two bytes swapped. -/
def Obligations.OtherEndianSwapsBytes : Prop :=
  ∀ s : State, ∃ bs : List U8,
    exec .w2b s = .next { s with rsp := some { bareResponse 0 with outBytes := some bs }, record := none } ∧
    ∀ s' : State, s'.params.endian ≠ s.params.endian → s'.req.inBytes = bs →
      ∃ ws : List U16,
        exec .b2w s' = .next { s' with rsp := some { bareResponse 0 with outWords := some ws }, record := none } ∧
        ws.length = s.req.inWords.length ∧
        ∀ (i : Nat) (w : U16), s.req.inWords[i]? = some w →
          ws[i]? = some (w.extractLsb' 0 8 ++ w.extractLsb' 8 8)

/-- spec/43_reinterpret.md section 1 (a raw file followed by DECODE): DECODE of the words of `L` bytes succeeds exactly when
`L` is `2WH` or `2WH + 1`. -/
def Obligations.RawFileLengthsAccepted : Prop :=
  ∀ s : State, ∃ ws : List U16,
    exec .b2w s = .next { s with rsp := some { bareResponse 0 with outWords := some ws }, record := none } ∧
    ∀ s' : State, s'.req.inWords = ws → 0 < s'.req.width → 0 < s'.req.height →
      withinCapacity s'.params (s'.req.width * s'.req.height) →
      ((∃ img : Image, exec .decode s' = .next { s' with
          rsp := some { bareResponse 0 with outImg := some img }, record := none }) ↔
        (s.req.inBytes.length = 2 * (s'.req.width * s'.req.height) ∨
          s.req.inBytes.length = 2 * (s'.req.width * s'.req.height) + 1))

/-- spec/43_reinterpret.md section 2 (an encoded image as file bytes): ENCODE followed by W2B gives `2WH` bytes, word `i` in
bytes `2i` and `2i+1`. -/
def Obligations.EncodedFileLayout : Prop :=
  ∀ s : State, 0 < s.req.width → 0 < s.req.height → withinCapacity s.params (s.req.width * s.req.height) →
    s.req.inBytes.length = 3 * (s.req.width * s.req.height) →
    ∃ ws : List U16,
      exec .encode s = .next { s with rsp := some { bareResponse 0 with outWords := some ws }, record := none } ∧
      ∀ s' : State, s'.params = s.params → s'.req.inWords = ws →
        ∃ bs : List U8,
          exec .w2b s' = .next { s' with rsp := some { bareResponse 0 with outBytes := some bs }, record := none } ∧
          bs.length = 2 * (s.req.width * s.req.height) ∧
          ∀ i, i < s.req.width * s.req.height →
            ∃ w, ws[i]? = some w ∧ memRead16 s.params.endian bs (2 * i) = some w

/-! ### Requests, responses and errors -/

/-- spec/70_reset_and_hazards.md section 3 and spec/10_state.md section 2: every instruction, legal or not, answers its
request with one response of the allowed form and changes nothing but the response port and the fault record. -/
def Obligations.EveryRequestIsAnswered : Prop :=
  ∀ (i : Instr) (s : State), ∃ (r : Response) (e : Option ErrorInfo),
    exec i s = .next { s with rsp := some r, record := e } ∧
    goodResponse r = true ∧ recordAgrees (some r) e = true

/-- R23, R25: on success exactly the fields listed for the operation hold a value; every field not listed, and every result
field of a failed request, holds none, and reading it is a fault, whatever an earlier request left. -/
def Obligations.UnwrittenFieldsFault : Prop :=
  ∀ (i : Instr) (s t : State) (r : Response) (f : RspField), exec i s = .next t → t.rsp = some r → f ≠ .status →
    (r.status ≠ 0 → readField t.rsp f = .error (.noValue f)) ∧
    (f ∉ resultFields i → readField t.rsp f = .error (.noValue f)) ∧
    (r.status = 0 → f ∈ resultFields i → ∃ v, readField t.rsp f = .ok v)

/-- R22: a field that an operation does not read is ignored: requests with one command byte that agree on the fields the
operation reads get one response, whatever else the states hold. -/
def Obligations.UnreadFieldsAreIgnored : Prop :=
  ∀ s s' : State, s.params = s'.params → s.req.cmd = s'.req.cmd →
    operandsAgree s.req s'.req (decodeCommand s.req.cmd) = true →
    ∃ (r : Response) (e : Option ErrorInfo),
      exec (decodeCommand s.req.cmd) s = .next { s with rsp := some r, record := e } ∧
      exec (decodeCommand s'.req.cmd) s' = .next { s' with rsp := some r, record := e }

/-- R142: the code in `STATUS` tells the cause: `OK`, or one of the four errors with its `info`; no other code is written. -/
def Obligations.StatusTellsTheCause : Prop :=
  ∀ (s t : State) (r : Response), exec (decodeCommand s.req.cmd) s = .next t → t.rsp = some r →
    (r.status = 0 ∧ t.record = none) ∨
    (r.status = 1 ∧
      ((s.req.cmd = 0x02 ∧ s.req.inWords.length ≠ s.req.width * s.req.height ∧
          t.record = some (.length s.req.inWords.length (s.req.width * s.req.height))) ∨
        (s.req.cmd = 0x03 ∧ s.req.inBytes.length ≠ 3 * (s.req.width * s.req.height) ∧
          t.record = some (.length s.req.inBytes.length (3 * (s.req.width * s.req.height)))))) ∨
    (r.status = 2 ∧ (s.req.cmd = 0x02 ∨ s.req.cmd = 0x03) ∧ (s.req.width = 0 ∨ s.req.height = 0) ∧
      t.record = some (.dim s.req.width s.req.height)) ∨
    (r.status = 3 ∧ isIllegalCommand s.req.cmd = true ∧ t.record = some (.illegal s.req.cmd)) ∨
    (r.status = 4 ∧ (s.req.cmd = 0x02 ∨ s.req.cmd = 0x03) ∧
      exceedsCapacity s.params (s.req.width * s.req.height) ∧
      t.record = some (.capacity (s.req.width * s.req.height)))

/-- R148: where several causes apply to one request, the first of `Illegal`, `Dim`, `Capacity`, `Length` wins. -/
def Obligations.FirstErrorWins : Prop :=
  ∀ s : State,
    (isIllegalCommand s.req.cmd = true →
      exec (decodeCommand s.req.cmd) s = .next { s with
        rsp := some (bareResponse 3), record := some (.illegal s.req.cmd) }) ∧
    ((s.req.cmd = 0x02 ∨ s.req.cmd = 0x03) →
      ((s.req.width = 0 ∨ s.req.height = 0) →
        exec (decodeCommand s.req.cmd) s = .next { s with
          rsp := some (bareResponse 2), record := some (.dim s.req.width s.req.height) }) ∧
      (0 < s.req.width → 0 < s.req.height → exceedsCapacity s.params (s.req.width * s.req.height) →
        exec (decodeCommand s.req.cmd) s = .next { s with
          rsp := some (bareResponse 4), record := some (.capacity (s.req.width * s.req.height)) }) ∧
      (∀ actual required : Nat, 0 < s.req.width → 0 < s.req.height →
        withinCapacity s.params (s.req.width * s.req.height) → actual ≠ required →
        ((s.req.cmd = 0x02 ∧ actual = s.req.inWords.length ∧ required = s.req.width * s.req.height) ∨
          (s.req.cmd = 0x03 ∧ actual = s.req.inBytes.length ∧ required = 3 * (s.req.width * s.req.height))) →
        exec (decodeCommand s.req.cmd) s = .next { s with
          rsp := some (bareResponse 1), record := some (.length actual required) }))

/-! ### Steps -/

/-- spec/10_state.md section 1 and spec/70_reset_and_hazards.md section 3: where the block moves next (nothing is listed in
`moves`, or the block's move is), and the oldest pending request's command byte decodes to `i`, the step is `exec i` on
that request's fields, and then the delivery of the response to the sender; to a sender that the state does not hold
nothing is delivered. That nothing listed means the block is the model's choice (log entry 5). -/
def Obligations.StepPerformsTheDecodedInstruction : Prop :=
  ∀ (s : State) (ms : List Move) (e : Pending) (rest : List Pending) (i : Instr),
    ((s.moves = [] ∧ ms = []) ∨ s.moves = .block :: ms) → s.pending = e :: rest →
    decodeBytes [e.req.cmd] = .ok (i, []) →
    (∀ t, exec i { s with moves := ms, pending := rest, req := e.req } = .next t → step s = deliver e.sender t) ∧
    (s.hosts[e.sender]? = none → step s = exec i { s with moves := ms, pending := rest, req := e.req })

/-- Log entry 4, with spec/30_encoding.md section 1: the state with a fetch word performs that instruction in its very next
step, on the request fields that stand in `req`, and then is as it was. -/
def Obligations.FetchWordRunsNext : Prop :=
  ∀ (s : State) (w : Nat), step (s.withFetchWord 8 w) =
    exec (decodeCommand (BitVec.ofNat 8 w)) { s with req := { s.req with cmd := BitVec.ofNat 8 w } }

/-- spec/10_state.md section 3 (persistent state) and spec/20_memory.md section 3: a step's response depends only on the
request it performs and on the parameters. That the block moves where nothing is listed is the model's choice (log entry
5). -/
def Obligations.ResponseDependsOnRequestOnly : Prop :=
  ∀ (s s' t t' : State) (e e' : Pending) (rest rest' : List Pending), s.params = s'.params →
    s.blockNext = true → s'.blockNext = true → s.pending = e :: rest → s'.pending = e' :: rest' → e.req = e'.req →
    step s = .next t → step s' = .next t' →
    (∃ r, t.rsp = some r) ∧ t.rsp = t'.rsp ∧ t.record = t'.record

/-- spec/10_state.md section 3: the parameters are fixed for an instance; no run changes them. -/
def Obligations.ParametersNeverChange : Prop :=
  ∀ s t : State, Reaches s t → t.params = s.params

/-- spec/10_state.md section 5 (R34): after reset the response port holds no response, so reading any field of it is a fault,
and a request accepted and not answered is dropped, its host getting no response: in `State.reset`, and after the reset of any
state. That every host is still there, with its latest response as it was, is the model's choice (log entries 12 and 15). -/
def Obligations.ResetEmptiesThePorts : Prop :=
  (State.reset.rsp = none ∧ State.reset.pending = [] ∧
    ∀ f, readField State.reset.rsp f = .error (.noValue f)) ∧
  (∀ (s : State) (ms : List Move), s.moves = .reset :: ms →
    ∃ t, step s = .next t ∧ t.rsp = none ∧ t.pending = [] ∧ (∀ f, readField t.rsp f = .error (.noValue f)) ∧
      ∀ (n : Nat) (a : HostAgent), s.hosts[n]? = some a → ∃ a', t.hosts[n]? = some a' ∧ a'.last = a.last)

/-- spec/70_reset_and_hazards.md section 1 and spec/10_state.md section 3: the reset move empties the block's ports and
leaves its parameters. That it leaves the hosts as they are, and the request fields blank, is the model's choice (log
entries 12 and 2). -/
def Obligations.ResetMoveKeepsTheRest : Prop :=
  ∀ (s : State) (ms : List Move), s.moves = .reset :: ms →
    step s = .next { s with moves := ms, pending := [], req := Request.blank, rsp := none, record := none }

/-- The invariant (Safety.lean) holds at reset. It joins R25, R30, R67 and R142 with the canonical form of the model's own
host bindings (log entry 6). -/
def Obligations.ResetMeetsInvariant : Prop := State.reset.Inv

/-- Every step keeps the invariant, from every state that meets it: the responses stay of the allowed form, the images keep
their length invariant, the requests fit `DIM_BITS` (log entry 8), each host has at most one request pending and its
bindings stay in canonical form (log entry 6). -/
def Obligations.StepKeepsInvariant : Prop :=
  ∀ s t : State, s.Inv → step s = .next t → t.Inv

/-- spec/70_reset_and_hazards.md section 3: the block never hangs or stalls: under the invariant, the block's step on any
pending request answers it, with no fault and no refusal. That the block moves where nothing is listed is the model's choice
(log entry 5). -/
def Obligations.BlockNeverStalls : Prop :=
  ∀ (s : State) (e : Pending) (rest : List Pending), s.Inv → s.blockNext = true → s.pending = e :: rest →
    ∃ (t : State) (r : Response), step s = .next t ∧ t.rsp = some r ∧ t.req = e.req ∧ t.pending = rest ∧
      goodResponse r = true

/-- spec/70_reset_and_hazards.md section 3: each request gets its response after finitely many steps: the block, left to
move, answers all pending requests in as many steps. That the block moves where nothing is listed is the model's choice (log
entry 5). -/
def Obligations.PendingRequestsAllAnswered : Prop :=
  ∀ s : State, s.Inv → s.moves = [] →
    ∃ t : State, Sys2Proof.core.run s.pending.length s = .next t ∧ t.pending = [] ∧ t.Inv ∧
      (s.pending ≠ [] → ∃ r, t.rsp = some r ∧ goodResponse r = true)

/-- spec/20_memory.md section 4: the order of requests of different senders is free: performed in either order, two pending
requests leave every host with the same results and the same requests pending. That the block moves where nothing is listed,
and takes the requests in the order accepted, is the model's choice (log entry 5). -/
def Obligations.OrderBetweenSendersIsFree : Prop :=
  ∀ (s : State) (a b : Pending) (rest : List Pending), s.moves = [] → a.sender ≠ b.sender →
    { s with pending := a :: b :: rest }.Inv →
    ∃ t t' : State,
      Sys2Proof.core.run 2 { s with pending := a :: b :: rest } = .next t ∧
      Sys2Proof.core.run 2 { s with pending := b :: a :: rest } = .next t' ∧
      t.hosts = t'.hosts ∧ t.pending = rest ∧ t'.pending = rest ∧ t.params = t'.params

/-! ### The hosts -/

/-- spec/70_reset_and_hazards.md section 2 (R167): a host's displayed image changes only by the step that answers its own
DECODE with `STATUS = OK`; and after a failed request the host keeps everything but its latest response (R152, R167). That
the display becomes the image of that response is the model's reading (log entry 10), the rule saying only when it may
change; that a host keeps its names after a failed request is its reading too (log entry 9). That a host keeps its latest
response (log entry 15), and that the block moves where nothing is listed (log entry 5), are its choices. -/
def Obligations.DisplayChangesOnlyOnDecodeOk : Prop :=
  ∀ (s t : State) (n : Nat) (a a' : HostAgent), step s = .next t → s.hosts[n]? = some a → t.hosts[n]? = some a' →
    (a'.display ≠ a.display → ∃ (e : Pending) (rest : List Pending) (r : Response) (im : Image),
      s.blockNext = true ∧ s.pending = e :: rest ∧ e.sender = n ∧ decodeCommand e.req.cmd = .decode ∧
      t.rsp = some r ∧ r.status = 0 ∧ r.outImg = some im ∧ a'.display = some im) ∧
    (∀ (e : Pending) (rest : List Pending) (r : Response),
      s.blockNext = true → s.pending = e :: rest → e.sender = n → t.rsp = some r → r.status ≠ 0 →
      a' = { a with last := some r, waiting := none })

/-- spec/70_reset_and_hazards.md section 2 (R163): a host whose latest response is that of a failed request, or of an
operation that does not write field `f`, faults where it reads `f`; so does a host that has no response yet, whatever the
field (spec/10_state.md sections 3 and 5: `STATUS` and every result field hold no value then); and a host that gets a failed
response uses none of its result fields. That a host keeps its latest response and reads its fields is the model's choice (log
entry 15); that it keeps its names after a failed request is its reading of R152 and R167 (log entry 9). -/
def Obligations.HostReadOfNoValueFaults : Prop :=
  (∀ (i : Instr) (u v : State) (r : Response) (s : State) (n : Nat) (a : HostAgent) (f : RspField)
    (dst : Option Nat) (prog : List HostStmt) (ms : List Move),
    exec i u = .next v → v.rsp = some r → f ≠ .status → (r.status ≠ 0 ∨ f ∉ resultFields i) →
    s.moves = .host n :: ms → s.hosts[n]? = some a → a.waiting = none → a.program = .read f dst :: prog →
    a.last = some r → step s = .fault (.noValue f)) ∧
  (∀ (s : State) (n : Nat) (a : HostAgent) (f : RspField) (dst : Option Nat) (prog : List HostStmt) (ms : List Move),
    s.moves = .host n :: ms → s.hosts[n]? = some a → a.waiting = none → a.program = .read f dst :: prog →
    a.last = none → step s = .fault (.noValue f)) ∧
  (∀ (i : Instr) (u v : State) (r : Response) (a : HostAgent),
    exec i u = .next v → v.rsp = some r → r.status ≠ 0 →
    receive r a = .next { a with last := some r, waiting := none })

/-- A step changes only the host that moves or the host whose request it answers (spec/20_memory.md section 4: requests
"on independent buffers" need no coordination). That a reset changes no host is the model's choice (log entry 12), and so is
that the block moves where nothing is listed (log entry 5). -/
def Obligations.HostsAreIsolated : Prop :=
  ∀ (s t : State) (m : Nat), step s = .next t → t.hosts[m]? ≠ s.hosts[m]? →
    (∃ ms, s.moves = .host m :: ms) ∨
    (s.blockNext = true ∧ ∃ (e : Pending) (rest : List Pending), s.pending = e :: rest ∧ e.sender = m)

/-- spec/30_encoding.md section 6: the request of each statement form is the operation's command byte with the operand
values in its fields, a buffer operand being a literal or a name bound to a value of its type. That a `u16` or `u8` operand
may be a bound name too is the model's reading (log entry 11); that the fields the operation does not read are zero or empty
is its choice (log entry 7), and so is the raw form, a request written out field by field (log entry 15), whose dimensions
must fit like those of the others (log entry 8). -/
def Obligations.StatementsMakeTheirRequests : Prop :=
  ∀ (params : Params) (names : List (Nat × Value)) (dst : Option Nat),
    (∀ (x : Operand U16) (p : U16) (d : Option (Nat × Nat × Nat)),
      (x = .lit p ∨ ∃ n, x = .name n ∧ lookupName names n = some (.word p)) →
      requestOf params names (.unpack565 x d) =
        .ok ({ Request.blank with cmd := encodeCommand .unpack565, p := p }, .channels d)) ∧
    (∀ (x y z : Operand U8) (r g b : U8),
      (x = .lit r ∨ ∃ n, x = .name n ∧ lookupName names n = some (.byte r)) →
      (y = .lit g ∨ ∃ n, y = .name n ∧ lookupName names n = some (.byte g)) →
      (z = .lit b ∨ ∃ n, z = .name n ∧ lookupName names n = some (.byte b)) →
      requestOf params names (.pack888 x y z dst) =
        .ok ({ Request.blank with cmd := encodeCommand .pack888, r := r, g := g, b := b }, .pixel dst)) ∧
    (∀ (w h : Nat) (x : Operand (List U16)) (ws : List U16),
      w < 2 ^ (params.dimBits : Nat) → h < 2 ^ (params.dimBits : Nat) →
      (x = .lit ws ∨ ∃ n, x = .name n ∧ lookupName names n = some (.words ws)) →
      requestOf params names (.decode w h x dst) =
        .ok ({ Request.blank with cmd := encodeCommand .decode, width := w, height := h, inWords := ws }, .image dst)) ∧
    (∀ (w h : Nat) (x : Operand (List U8)) (bs : List U8),
      w < 2 ^ (params.dimBits : Nat) → h < 2 ^ (params.dimBits : Nat) →
      (x = .lit bs ∨ ∃ n, x = .name n ∧ lookupName names n = some (.bytes bs)) →
      requestOf params names (.encode w h x dst) =
        .ok ({ Request.blank with cmd := encodeCommand .encode, width := w, height := h, inBytes := bs }, .words dst)) ∧
    (∀ (x : Operand (List U8)) (bs : List U8),
      (x = .lit bs ∨ ∃ n, x = .name n ∧ lookupName names n = some (.bytes bs)) →
      requestOf params names (.b2w x dst) =
        .ok ({ Request.blank with cmd := encodeCommand .b2w, inBytes := bs }, .words dst)) ∧
    (∀ (x : Operand (List U16)) (ws : List U16),
      (x = .lit ws ∨ ∃ n, x = .name n ∧ lookupName names n = some (.words ws)) →
      requestOf params names (.w2b x dst) =
        .ok ({ Request.blank with cmd := encodeCommand .w2b, inWords := ws }, .bytes dst)) ∧
    (∀ q : Request, q.width < 2 ^ (params.dimBits : Nat) → q.height < 2 ^ (params.dimBits : Nat) →
      requestOf params names (.raw q) = .ok (q, .status))

/-- spec/30_encoding.md section 6 and spec/20_memory.md section 4: where a host that waits for nothing moves, its next
statement sends its request, and nothing changes but the requests pending and the host. That the request is accepted in that
one move, behind all pending, is the model's choice (log entry 5), and that the host then waits for its response is its
reading (log entry 6). That the response still stands at its port, with the request fields and the fault record as they were,
is the model's choice (log entries 3 and 16). -/
def Obligations.HostMoveSendsItsRequest : Prop :=
  ∀ (s : State) (ms : List Move) (n : Nat) (a : HostAgent) (c : HostCmd) (prog : List HostStmt) (q : Request)
    (w : Waiting),
    s.moves = .host n :: ms → s.hosts[n]? = some a → a.waiting = none → a.program = .send c :: prog →
    requestOf s.params a.bindings c = .ok (q, w) →
    step s = .next { s with
      moves := ms
      pending := s.pending ++ [{ sender := n, req := q }]
      hosts := s.hosts.set n { a with program := prog, waiting := some w } }

/-- spec/30_encoding.md section 6 (R70): RAWDECODE is B2W and then DECODE of its words; RAWENCODE is ENCODE and then W2B of
its words; where the first request fails the second is not sent and the first's status is the result. From a state in which
only host `n` moves, the host's next statement being the macro, four moves (host, block, host, block) run both requests, and
two run a failing first. `x` is the operand `bytes=F`, a literal or a name. That a host keeps its display and names after a
failed ENCODE is spec/60_exceptions.md section 4 (R152) and spec/70_reset_and_hazards.md section 2 (R167), read for names by
log entry 9; that each request is accepted in one move (log entry 5) and that a host keeps its latest response (log entry 15)
are the model's choices, and that the host then waits is its reading (log entry 6). -/
def Obligations.MacrosAreTheirTwoRequests : Prop :=
  ∀ (s : State) (n : Nat) (a : HostAgent) (w h : Nat) (x : Operand (List U8)) (F : List U8) (dst : Option Nat)
    (prog : List HostStmt) (ms : List Move),
    (x = .lit F ∨ ∃ m, x = .name m ∧ lookupName a.bindings m = some (.bytes F)) →
    s.pending = [] → s.hosts[n]? = some a → a.waiting = none →
    w < 2 ^ (s.params.dimBits : Nat) → h < 2 ^ (s.params.dimBits : Nat) →
    (a.program = .send (.rawDecode w h x dst) :: prog →
      s.moves = .host n :: .block :: .host n :: .block :: ms →
      ∃ (u v : State) (ws : List U16) (r : Response) (t : State) (a' : HostAgent),
        exec .b2w { s with req := { Request.blank with cmd := 0x04, inBytes := F } } = .next u ∧
        u.rsp = some { bareResponse 0 with outWords := some ws } ∧
        exec .decode { s with
          req := { Request.blank with cmd := 0x02, width := w, height := h, inWords := ws } } = .next v ∧
        v.rsp = some r ∧ Sys2Proof.core.run 4 s = .next t ∧ t.hosts[n]? = some a' ∧ t.pending = [] ∧
        a'.last = some r ∧ a'.waiting = none ∧ a'.program = prog ∧
        (∀ im, r.outImg = some im → ∀ d, dst = some d → lookupName a'.bindings d = some (.image im))) ∧
    (a.program = .send (.rawEncode w h x dst) :: prog →
      ∃ (u : State) (r : Response),
        exec .encode { s with
          req := { Request.blank with cmd := 0x03, width := w, height := h, inBytes := F } } = .next u ∧
        u.rsp = some r ∧
        (r.status ≠ 0 → s.moves = .host n :: .block :: ms →
          ∃ (t : State) (a' : HostAgent), Sys2Proof.core.run 2 s = .next t ∧ t.hosts[n]? = some a' ∧ t.pending = [] ∧
            a' = { a with program := prog, last := some r }) ∧
        (r.status = 0 → s.moves = .host n :: .block :: .host n :: .block :: ms →
          ∃ (ws : List U16) (v : State) (bs : List U8) (t : State) (a' : HostAgent),
            r.outWords = some ws ∧
            exec .w2b { s with req := { Request.blank with cmd := 0x05, inWords := ws } } = .next v ∧
            v.rsp = some { bareResponse 0 with outBytes := some bs } ∧
            Sys2Proof.core.run 4 s = .next t ∧ t.hosts[n]? = some a' ∧ t.pending = [] ∧
            a'.last = v.rsp ∧ a'.waiting = none ∧ a'.program = prog ∧
            ∀ d, dst = some d → lookupName a'.bindings d = some (.bytes bs)))

/-- spec/30_encoding.md section 4 (`WIDTH` and `HEIGHT`) and log entry 8, the model's choice: a host's DECODE or ENCODE
statement with a dimension that `DIM_BITS` bits cannot hold sends no request and faults, whatever its buffer operand; one
whose dimensions fit, 0 among them, is sent. That the dimensions are reported first, even where the buffer's name is unbound
(log entry 19), and that a request goes behind those pending in one move (log entry 5), are its choices too. -/
def Obligations.DimensionsMustFit : Prop :=
  ∀ (s : State) (ms : List Move) (n : Nat) (a : HostAgent) (w h : Nat) (xw : Operand (List U16))
    (xb : Operand (List U8)) (dst : Option Nat) (prog : List HostStmt),
    s.moves = .host n :: ms → s.hosts[n]? = some a → a.waiting = none →
    (a.program = .send (.decode w h xw dst) :: prog ∨ a.program = .send (.encode w h xb dst) :: prog) →
    ((2 ^ (s.params.dimBits : Nat) ≤ w ∨ 2 ^ (s.params.dimBits : Nat) ≤ h) → step s = .fault (.dimTooWide w h)) ∧
    (w < 2 ^ (s.params.dimBits : Nat) → h < 2 ^ (s.params.dimBits : Nat) →
      ∀ (ws : List U16) (bs : List U8), xw = .lit ws → xb = .lit bs →
      ∃ (t : State) (q : Request), step s = .next t ∧ t.pending = s.pending ++ [{ sender := n, req := q }] ∧
        q.width = w ∧ q.height = h)
end

