-- ==== Sys2Proof/Laws/Bindings.lean ====
section
/-! SUPPORT. The names a host binds: binding keeps the canonical form, and reads back. -/

namespace Sys2Proof.Machine

/-- The canonical form, as a relation between neighbours' names. -/
theorem bindingsWf_iff (bs : List (Nat × Value)) : bindingsWf bs = true ↔ bs.Pairwise (fun a b => a.1 < b.1) := by
  induction bs with
  | nil => simp [bindingsWf]
  | cons a rest ih =>
    cases rest with
    | nil => simp [bindingsWf]
    | cons b rest =>
      simp only [bindingsWf, Bool.and_eq_true, decide_eq_true_eq, ih, List.pairwise_cons]
      constructor
      · rintro ⟨hab, hb, hrest⟩
        refine ⟨fun c hc => ?_, hb, hrest⟩
        rcases List.mem_cons.mp hc with rfl | hc
        · exact hab
        · exact Nat.lt_trans hab (hb c hc)
      · rintro ⟨ha, hb, hrest⟩
        exact ⟨ha b (List.mem_cons_self ..), hb, hrest⟩

/-- What stands in the list after a name is bound. -/
theorem mem_bindName {n : Nat} {v : Value} {bs : List (Nat × Value)} {c : Nat × Value} (h : c ∈ bindName n v bs) :
    c = (n, v) ∨ c ∈ bs := by
  induction bs with
  | nil => exact .inl (by simpa [bindName] using h)
  | cons a rest ih =>
    obtain ⟨m, u⟩ := a
    simp only [bindName] at h
    split_ifs at h with h1 h2
    · simpa using h
    · rcases List.mem_cons.mp h with h | h
      · exact .inl h
      · exact .inr (List.mem_cons_of_mem _ h)
    · rcases List.mem_cons.mp h with h | h
      · exact .inr (by simp [h])
      · exact (ih h).imp_right (List.mem_cons_of_mem _)

theorem bindName_wf (n : Nat) (v : Value) (bs : List (Nat × Value)) (h : bindingsWf bs = true) :
    bindingsWf (bindName n v bs) = true := by
  rw [bindingsWf_iff] at h ⊢
  induction bs with
  | nil => simp [bindName]
  | cons a rest ih =>
    obtain ⟨m, u⟩ := a
    obtain ⟨hm, hrest⟩ := List.pairwise_cons.mp h
    simp only [bindName]
    split_ifs with h1 h2
    · refine List.pairwise_cons.mpr ⟨fun c hc => ?_, h⟩
      rcases List.mem_cons.mp hc with rfl | hc
      · exact h1
      · exact Nat.lt_trans h1 (hm c hc)
    · exact List.pairwise_cons.mpr ⟨fun c hc => h2 ▸ hm c hc, hrest⟩
    · refine List.pairwise_cons.mpr ⟨fun c hc => ?_, ih hrest⟩
      rcases mem_bindName hc with rfl | hc
      · show m < n
        omega
      · exact hm c hc

theorem lookupName_bindName_self (n : Nat) (v : Value) (bs : List (Nat × Value)) :
    lookupName (bindName n v bs) n = some v := by
  induction bs with
  | nil => simp [bindName, lookupName]
  | cons a rest ih =>
    obtain ⟨m, u⟩ := a
    simp only [bindName]
    split_ifs with h1 h2
    · simp [lookupName]
    · simp [lookupName]
    · simp [lookupName, ih, Ne.symm h2]

theorem lookupName_bindName_other (n k : Nat) (v : Value) (bs : List (Nat × Value)) (h : k ≠ n) :
    lookupName (bindName n v bs) k = lookupName bs k := by
  induction bs with
  | nil => simp [bindName, lookupName, h.symm]
  | cons a rest ih =>
    obtain ⟨m, u⟩ := a
    simp only [bindName]
    split_ifs with h1 h2
    · simp [lookupName, h.symm]
    · subst h2; simp [lookupName, h.symm]
    · simp [lookupName, ih]

end Sys2Proof.Machine
end

