-- ==== Sys2Proof/Laws/Buffers.lean ====
section
/-! SUPPORT. The views and the pixel sequences: lengths, elements by index, and the accesses of a byte buffer. -/

namespace Sys2Proof.Machine

/-! ### The two bytes of a word (R42) -/

@[simp] theorem wordOfBytes_bytes (e : Endian) (w : U16) : wordOfBytes e (firstByte e w) (secondByte e w) = w := by
  apply BitVec.eq_of_getLsbD_eq
  intro i hi
  cases e <;> simp only [wordOfBytes, firstByte, secondByte, BitVec.getLsbD_append, BitVec.getLsbD_extractLsb'] <;>
    interval_cases i <;> simp

@[simp] theorem firstByte_word (e : Endian) (b0 b1 : U8) : firstByte e (wordOfBytes e b0 b1) = b0 := by
  apply BitVec.eq_of_getLsbD_eq
  intro i hi
  cases e <;> simp only [wordOfBytes, firstByte, BitVec.getLsbD_append, BitVec.getLsbD_extractLsb'] <;>
    interval_cases i <;> simp

@[simp] theorem secondByte_word (e : Endian) (b0 b1 : U8) : secondByte e (wordOfBytes e b0 b1) = b1 := by
  apply BitVec.eq_of_getLsbD_eq
  intro i hi
  cases e <;> simp only [wordOfBytes, secondByte, BitVec.getLsbD_append, BitVec.getLsbD_extractLsb'] <;>
    interval_cases i <;> simp

/-! ### B2W -/

@[simp] theorem wordsOfBytes_length (e : Endian) (bs : List U8) : (wordsOfBytes e bs).length = bs.length / 2 := by
  induction bs using wordsOfBytes.induct with
  | case1 b0 b1 rest ih => simp [wordsOfBytes, ih]; omega
  | case2 b => simp [wordsOfBytes]
  | case3 => simp [wordsOfBytes]

/-- Word `i` is what `MemRead(2i, 2)` gives (R120). -/
theorem wordsOfBytes_getElem? (e : Endian) (bs : List U8) (i : Nat) :
    (wordsOfBytes e bs)[i]? = memRead16 e bs (2 * i) := by
  induction bs using wordsOfBytes.induct generalizing i with
  | case1 b0 b1 rest ih =>
    cases i with
    | zero => simp [wordsOfBytes, memRead16]
    | succ i =>
      have h : 2 * (i + 1) = 2 * i + 1 + 1 := by omega
      have ih := ih i
      simp only [memRead16] at ih
      simp [wordsOfBytes, memRead16, h, ih]
  | case2 b => cases i <;> simp [wordsOfBytes, memRead16, Nat.mul_add]
  | case3 => simp [wordsOfBytes, memRead16]

/-! ### W2B -/

@[simp] theorem bytesOfWords_length (e : Endian) (ws : List U16) : (bytesOfWords e ws).length = 2 * ws.length := by
  induction ws with
  | nil => rfl
  | cons w rest ih => simp [bytesOfWords, ih]; omega

theorem bytesOfWords_getElem?_even (e : Endian) (ws : List U16) (i : Nat) :
    (bytesOfWords e ws)[2 * i]? = ws[i]?.map (firstByte e) := by
  induction ws generalizing i with
  | nil => simp [bytesOfWords]
  | cons w rest ih =>
    cases i with
    | zero => simp [bytesOfWords]
    | succ i =>
      have h : 2 * (i + 1) = 2 * i + 1 + 1 := by omega
      simp [bytesOfWords, h, ih]

theorem bytesOfWords_getElem?_odd (e : Endian) (ws : List U16) (i : Nat) :
    (bytesOfWords e ws)[2 * i + 1]? = ws[i]?.map (secondByte e) := by
  induction ws generalizing i with
  | nil => simp [bytesOfWords]
  | cons w rest ih =>
    cases i with
    | zero => simp [bytesOfWords]
    | succ i =>
      have h : 2 * (i + 1) + 1 = 2 * i + 1 + 1 + 1 := by omega
      simp [bytesOfWords, h, ih]

/-! ### ENCODE and the flat layout (R64) -/

@[simp] theorem flattenPixels_length (ps : List Rgb888) : (flattenPixels ps).length = 3 * ps.length := by
  induction ps with
  | nil => rfl
  | cons p rest ih => simp [flattenPixels, ih]; omega

@[simp] theorem packTriples_length (bs : List U8) : (packTriples bs).length = bs.length / 3 := by
  induction bs using packTriples.induct with
  | case1 r g b rest ih => simp [packTriples, ih]; omega
  | case2 a b => simp [packTriples]
  | case3 a => simp [packTriples]
  | case4 => simp [packTriples]

/-- Word `i` is the packing of bytes `3i`, `3i+1`, `3i+2` (R106). -/
theorem packTriples_getElem? (bs : List U8) (i : Nat) (r g b : U8) (hr : bs[3 * i]? = some r)
    (hg : bs[3 * i + 1]? = some g) (hb : bs[3 * i + 2]? = some b) : (packTriples bs)[i]? = some (packPixel r g b) := by
  induction bs using packTriples.induct generalizing i with
  | case1 r' g' b' rest ih =>
    cases i with
    | zero => simp_all [packTriples]
    | succ i =>
      have h : 3 * (i + 1) = 3 * i + 1 + 1 + 1 := by omega
      rw [h] at hr hg hb
      simpa [packTriples] using ih i (by simpa using hr) (by simpa using hg) (by simpa using hb)
  | case2 x y => cases i <;> simp_all [Nat.mul_add]
  | case3 x => cases i <;> simp_all [Nat.mul_add]
  | case4 => simp_all

/-! ### The accesses of a byte buffer -/

@[simp] theorem memWrite16_length (e : Endian) (buf : List U8) (a : Nat) (w : U16) :
    (memWrite16 e buf a w).length = buf.length := by
  simp [memWrite16]

/-- A write leaves every byte but its two as it was. -/
theorem memWrite16_frame (e : Endian) (buf : List U8) (a k : Nat) (w : U16) (h0 : k ≠ a) (h1 : k ≠ a + 1) :
    (memWrite16 e buf a w)[k]? = buf[k]? := by
  simp [memWrite16, h0.symm, h1.symm]

end Sys2Proof.Machine
end

