-- ==== Sys2Proof/Laws/Decode.lean ====
section
/-! SUPPORT. The decoder on its six legal bytes and on the others. -/

namespace Sys2Proof

/-- No two rows of the opcode table match one byte. -/
theorem opcodeRows_disjoint :
    opcodeRows.Pairwise (fun a b => a.mask &&& b.mask &&& (a.pattern ^^^ b.pattern) ≠ 0#8) := by
  decide

/-- Every byte decodes to one of the six operations or to `illegal` of itself. -/
theorem decodeCommand_cases (cmd : U8) :
    (cmd = 0x00#8 ∧ decodeCommand cmd = .unpack565) ∨ (cmd = 0x01#8 ∧ decodeCommand cmd = .pack888) ∨
    (cmd = 0x02#8 ∧ decodeCommand cmd = .decode) ∨ (cmd = 0x03#8 ∧ decodeCommand cmd = .encode) ∨
    (cmd = 0x04#8 ∧ decodeCommand cmd = .b2w) ∨ (cmd = 0x05#8 ∧ decodeCommand cmd = .w2b) ∨
    (isIllegalCommand cmd = true ∧ decodeCommand cmd = .illegal cmd) := by
  revert cmd
  decide

end Sys2Proof
end

