-- ==== Sys2Proof/Laws/State.lean ====
section
/-! SUPPORT. One lemma per field per update of State, true by rfl, so that no proof unfolds a record update. -/

namespace Sys2Proof.Machine

/-! ### `State.answer` writes the response port and the fault record -/

@[simp] theorem answer_params (s : State) (r : Response) (e : Option ErrorInfo) : (s.answer r e).params = s.params := rfl
@[simp] theorem answer_pending (s : State) (r : Response) (e : Option ErrorInfo) : (s.answer r e).pending = s.pending := rfl
@[simp] theorem answer_req (s : State) (r : Response) (e : Option ErrorInfo) : (s.answer r e).req = s.req := rfl
@[simp] theorem answer_rsp (s : State) (r : Response) (e : Option ErrorInfo) : (s.answer r e).rsp = some r := rfl
@[simp] theorem answer_record (s : State) (r : Response) (e : Option ErrorInfo) : (s.answer r e).record = e := rfl
@[simp] theorem answer_hosts (s : State) (r : Response) (e : Option ErrorInfo) : (s.answer r e).hosts = s.hosts := rfl
@[simp] theorem answer_moves (s : State) (r : Response) (e : Option ErrorInfo) : (s.answer r e).moves = s.moves := rfl

/-! ### `State.accept` adds a request behind those pending -/

@[simp] theorem accept_params (s : State) (n : Nat) (q : Request) : (s.accept n q).params = s.params := rfl
@[simp] theorem accept_pending (s : State) (n : Nat) (q : Request) : (s.accept n q).pending = s.pending ++ [{ sender := n, req := q }] := rfl
@[simp] theorem accept_req (s : State) (n : Nat) (q : Request) : (s.accept n q).req = s.req := rfl
@[simp] theorem accept_rsp (s : State) (n : Nat) (q : Request) : (s.accept n q).rsp = s.rsp := rfl
@[simp] theorem accept_record (s : State) (n : Nat) (q : Request) : (s.accept n q).record = s.record := rfl
@[simp] theorem accept_hosts (s : State) (n : Nat) (q : Request) : (s.accept n q).hosts = s.hosts := rfl
@[simp] theorem accept_moves (s : State) (n : Nat) (q : Request) : (s.accept n q).moves = s.moves := rfl

/-! ### `State.setHost` writes one host -/

@[simp] theorem setHost_params (s : State) (n : Nat) (a : HostAgent) : (s.setHost n a).params = s.params := rfl
@[simp] theorem setHost_pending (s : State) (n : Nat) (a : HostAgent) : (s.setHost n a).pending = s.pending := rfl
@[simp] theorem setHost_req (s : State) (n : Nat) (a : HostAgent) : (s.setHost n a).req = s.req := rfl
@[simp] theorem setHost_rsp (s : State) (n : Nat) (a : HostAgent) : (s.setHost n a).rsp = s.rsp := rfl
@[simp] theorem setHost_record (s : State) (n : Nat) (a : HostAgent) : (s.setHost n a).record = s.record := rfl
@[simp] theorem setHost_hosts (s : State) (n : Nat) (a : HostAgent) : (s.setHost n a).hosts = s.hosts.set n a := rfl
@[simp] theorem setHost_moves (s : State) (n : Nat) (a : HostAgent) : (s.setHost n a).moves = s.moves := rfl

/-! ### `State.resetBlock` empties the ports -/

@[simp] theorem resetBlock_params (s : State) : (s.resetBlock).params = s.params := rfl
@[simp] theorem resetBlock_pending (s : State) : (s.resetBlock).pending = [] := rfl
@[simp] theorem resetBlock_req (s : State) : (s.resetBlock).req = Request.blank := rfl
@[simp] theorem resetBlock_rsp (s : State) : (s.resetBlock).rsp = none := rfl
@[simp] theorem resetBlock_record (s : State) : (s.resetBlock).record = none := rfl
@[simp] theorem resetBlock_hosts (s : State) : (s.resetBlock).hosts = s.hosts := rfl
@[simp] theorem resetBlock_moves (s : State) : (s.resetBlock).moves = s.moves := rfl

/-! ### `State.withFetchWord` puts a request in front and gives the block the next move -/

@[simp] theorem withFetchWord_moves (s : State) (k w : Nat) : (s.withFetchWord k w).moves = .block :: s.moves := rfl
@[simp] theorem withFetchWord_pending (s : State) (k w : Nat) : (s.withFetchWord k w).pending =
    { sender := s.hosts.length, req := { s.req with cmd := BitVec.ofNat 8 (w % 2 ^ k) } } :: s.pending := rfl
@[simp] theorem withFetchWord_params (s : State) (k w : Nat) : (s.withFetchWord k w).params = s.params := rfl
@[simp] theorem withFetchWord_req (s : State) (k w : Nat) : (s.withFetchWord k w).req = s.req := rfl
@[simp] theorem withFetchWord_rsp (s : State) (k w : Nat) : (s.withFetchWord k w).rsp = s.rsp := rfl
@[simp] theorem withFetchWord_record (s : State) (k w : Nat) : (s.withFetchWord k w).record = s.record := rfl
@[simp] theorem withFetchWord_hosts (s : State) (k w : Nat) : (s.withFetchWord k w).hosts = s.hosts := rfl

/-! ### `HostAgent.bindTo` writes the bindings -/

@[simp] theorem bindTo_none (a : HostAgent) (v : Value) : a.bindTo none v = a := rfl
@[simp] theorem bindTo_some (a : HostAgent) (n : Nat) (v : Value) :
    a.bindTo (some n) v = { a with bindings := bindName n v a.bindings } := rfl
@[simp] theorem bindTo_program (a : HostAgent) (dst : Option Nat) (v : Value) : (a.bindTo dst v).program = a.program := by
  cases dst <;> rfl
@[simp] theorem bindTo_waiting (a : HostAgent) (dst : Option Nat) (v : Value) : (a.bindTo dst v).waiting = a.waiting := by
  cases dst <;> rfl
@[simp] theorem bindTo_last (a : HostAgent) (dst : Option Nat) (v : Value) : (a.bindTo dst v).last = a.last := by
  cases dst <;> rfl
@[simp] theorem bindTo_display (a : HostAgent) (dst : Option Nat) (v : Value) : (a.bindTo dst v).display = a.display := by
  cases dst <;> rfl

/-! ### `emptyResponse` holds no result -/

@[simp] theorem emptyResponse_status (c : Status) : (emptyResponse c).status = statusCode c := rfl
@[simp] theorem emptyResponse_outR (c : Status) : (emptyResponse c).outR = none := rfl
@[simp] theorem emptyResponse_outG (c : Status) : (emptyResponse c).outG = none := rfl
@[simp] theorem emptyResponse_outB (c : Status) : (emptyResponse c).outB = none := rfl
@[simp] theorem emptyResponse_outP (c : Status) : (emptyResponse c).outP = none := rfl
@[simp] theorem emptyResponse_outImg (c : Status) : (emptyResponse c).outImg = none := rfl
@[simp] theorem emptyResponse_outWords (c : Status) : (emptyResponse c).outWords = none := rfl
@[simp] theorem emptyResponse_outBytes (c : Status) : (emptyResponse c).outBytes = none := rfl

/-! ### `State.fetch` takes the oldest request -/

theorem fetch_nil (s : State) (h : s.pending = []) : s.fetch = none := by
  simp [State.fetch, h]

theorem fetch_cons (s : State) (e : Pending) (rest : List Pending) (h : s.pending = e :: rest) :
    s.fetch = some (e.sender, { s with pending := rest, req := e.req }) := by
  simp [State.fetch, h]

end Sys2Proof.Machine
end

