-- ==== Sys2Proof/Laws/Status.lean ====
section
/-! SUPPORT. The status codes, and the checks of the whole-image operations. -/

namespace Sys2Proof.Machine

@[simp] theorem statusOfCode_statusCode (c : Status) : statusOfCode (statusCode c) = some c := by
  cases c <;> rfl

theorem statusCode_ne_ok {c : Status} (h : c ≠ .ok) : statusCode c ≠ statusCode .ok := by
  cases c <;> first | exact absurd rfl h | decide

theorem errorStatus_ne_ok (e : ErrorInfo) : errorStatus e ≠ .ok := by
  cases e <;> simp [errorStatus]

theorem withinCapacity_iff (p : Params) (n : Nat) : withinCapacity p n ↔ overCapacity p.maxPixels n = false := by
  unfold withinCapacity overCapacity
  cases p.maxPixels <;> simp

theorem exceedsCapacity_iff (p : Params) (n : Nat) : exceedsCapacity p n ↔ overCapacity p.maxPixels n = true := by
  unfold exceedsCapacity overCapacity
  cases p.maxPixels <;> simp

theorem overCapacity_iff (m : Option ℕ+) (n : Nat) : overCapacity m n = true ↔ ∃ k : ℕ+, m = some k ∧ (k : Nat) < n := by
  cases m <;> simp [overCapacity]

/-- All that `imageError` can answer: R148's order, each error under the negation of those before it. -/
theorem imageError_cases (p : Params) (w h len req : Nat) :
    (imageError p w h len req = some (.dim w h) ∧ (w = 0 ∨ h = 0)) ∨
    (imageError p w h len req = some (.capacity (w * h)) ∧ 0 < w ∧ 0 < h ∧ overCapacity p.maxPixels (w * h) = true) ∨
    (imageError p w h len req = some (.length len req) ∧ 0 < w ∧ 0 < h ∧ overCapacity p.maxPixels (w * h) = false ∧
      len ≠ req) ∨
    (imageError p w h len req = none ∧ 0 < w ∧ 0 < h ∧ overCapacity p.maxPixels (w * h) = false ∧ len = req) := by
  unfold imageError
  by_cases hd : w = 0 ∨ h = 0
  · simp [hd]
  have hw : 0 < w := by omega
  have hh : 0 < h := by omega
  by_cases hc : overCapacity p.maxPixels (w * h) = true
  · simp [hd, hc, hw, hh]
  by_cases hl : len = req <;> simp [hd, hc, hw, hh, hl]

theorem imageError_eq_none (p : Params) (w h len req : Nat) :
    imageError p w h len req = none ↔ 0 < w ∧ 0 < h ∧ overCapacity p.maxPixels (w * h) = false ∧ len = req := by
  obtain ⟨e, c⟩ | ⟨e, c⟩ | ⟨e, c⟩ | ⟨e, c⟩ := imageError_cases p w h len req <;> rw [e]
  · simp; omega
  · simp [c.2.2]
  · simp [c.2.2.2]
  · simpa using c

end Sys2Proof.Machine
end

