-- ==== Sys2Proof/Laws/Exec.lean ====
section
/-! SUPPORT. What a meaning can do: it answers, and writes the response port and the fault record only. -/

namespace Sys2Proof.Machine

theorem succeed_eq (rsp : Response) (s : State) :
    succeed rsp s = .next (s.answer { rsp with status := statusCode .ok } none) := rfl

theorem raise_eq (e : ErrorInfo) (s : State) :
    raise e s = .next (s.answer (emptyResponse (errorStatus e)) (some e)) := rfl

/-- DECODE's two ways to end (R100). -/
theorem execDecode_cases (s : State) :
    (∃ e, imageError s.params s.req.width s.req.height s.req.inWords.length (s.req.width * s.req.height) = some e ∧
      execDecode s = raise e s) ∨
    (imageError s.params s.req.width s.req.height s.req.inWords.length (s.req.width * s.req.height) = none ∧
      execDecode s = succeed { emptyResponse .ok with
        outImg := some
          { width := s.req.width, height := s.req.height, pixels := s.req.inWords.map unpackPixel } } s) := by
  unfold execDecode
  split
  · next e h => exact .inl ⟨e, h, rfl⟩
  · next h => exact .inr ⟨h, rfl⟩

/-- ENCODE's two ways to end (R106). -/
theorem execEncode_cases (s : State) :
    (∃ e, imageError s.params s.req.width s.req.height s.req.inBytes.length (3 * (s.req.width * s.req.height)) = some e ∧
      execEncode s = raise e s) ∨
    (imageError s.params s.req.width s.req.height s.req.inBytes.length (3 * (s.req.width * s.req.height)) = none ∧
      execEncode s = succeed { emptyResponse .ok with outWords := some (packTriples s.req.inBytes) } s) := by
  unfold execEncode
  split
  · next e h => exact .inl ⟨e, h, rfl⟩
  · next h => exact .inr ⟨h, rfl⟩

/-- A meaning ends a request in one of two ways: with `succeed` or with `raise`. -/
theorem exec_ends (i : Instr) (s : State) : (∃ rsp, exec i s = succeed rsp s) ∨ (∃ e, exec i s = raise e s) := by
  cases i with
  | unpack565 => exact .inl ⟨_, rfl⟩
  | pack888 => exact .inl ⟨_, rfl⟩
  | decode =>
    obtain ⟨e, -, h⟩ | ⟨-, h⟩ := execDecode_cases s
    · exact .inr ⟨e, h⟩
    · exact .inl ⟨_, h⟩
  | encode =>
    obtain ⟨e, -, h⟩ | ⟨-, h⟩ := execEncode_cases s
    · exact .inr ⟨e, h⟩
    · exact .inl ⟨_, h⟩
  | b2w => exact .inl ⟨_, rfl⟩
  | w2b => exact .inl ⟨_, rfl⟩
  | illegal cmd => exact .inr ⟨_, rfl⟩

/-- The frame of every meaning: it answers the request and changes nothing else. -/
theorem exec_answers (i : Instr) (s : State) : ∃ rsp record, exec i s = .next (s.answer rsp record) := by
  obtain ⟨rsp, h⟩ | ⟨e, h⟩ := exec_ends i s
  · exact ⟨_, _, h⟩
  · exact ⟨_, _, h⟩

end Sys2Proof.Machine
end

