-- ==== Sys2Proof/Laws/Hosts.lean ====
section
/-! SUPPORT. What the hosts' operations and a step can do. -/

namespace Sys2Proof.Machine

/-! ### Taking a response -/

theorem withResult_next {α : Type} {x : Option α} {f : RspField} {k : α → Host.Outcome HostAgent Fault Refusal}
    {a : HostAgent} (h : withResult x f k = .next a) : ∃ v, x = some v ∧ k v = .next a := by
  cases x with
  | none => cases h
  | some v => exact ⟨v, rfl, h⟩

/-- A host that gets a failed response keeps everything but its latest response (R152, R167). -/
theorem receive_failed (rsp : Response) (a : HostAgent) (c : Status) (hc : statusOfCode rsp.status = some c)
    (hne : c ≠ .ok) : receive rsp a = .next { a with last := some rsp, waiting := none } := by
  unfold receive
  rw [hc]
  cases c with
  | ok => exact absurd rfl hne
  | length => rfl
  | dim => rfl
  | illegal => rfl
  | capacity => rfl

/-- A host that gets a response with `STATUS = OK` takes the results it waits for. -/
theorem receive_ok (rsp : Response) (a : HostAgent) (hc : statusOfCode rsp.status = some .ok) :
    receive rsp a = takeResult rsp { a with last := some rsp, waiting := none } (a.waiting.getD .status) := by
  unfold receive
  rw [hc]

/-- Whatever a host takes, its latest response and its wait stay as they were. -/
theorem takeResult_frame {rsp : Response} {a a' : HostAgent} {w : Waiting} (h : takeResult rsp a w = .next a') :
    a'.last = a.last ∧ a'.waiting = a.waiting := by
  cases w with
  | status => cases h; exact ⟨rfl, rfl⟩
  | channels dst =>
    obtain ⟨r, -, h⟩ := withResult_next h
    obtain ⟨g, -, h⟩ := withResult_next h
    obtain ⟨b, -, h⟩ := withResult_next h
    rcases dst with _ | ⟨nr, ng, nb⟩ <;> cases h <;> exact ⟨rfl, rfl⟩
  | pixel dst => obtain ⟨v, -, h⟩ := withResult_next h; cases h; simp
  | image dst => obtain ⟨v, -, h⟩ := withResult_next h; cases h; simp
  | words dst => obtain ⟨v, -, h⟩ := withResult_next h; cases h; simp
  | bytes dst => obtain ⟨v, -, h⟩ := withResult_next h; cases h; simp
  | thenDecode w h' dst => obtain ⟨v, -, h⟩ := withResult_next h; cases h; simp
  | thenW2b dst => obtain ⟨v, -, h⟩ := withResult_next h; cases h; simp

/-- The display changes only to an image that stands in `OUT_IMG`. -/
theorem takeResult_display {rsp : Response} {a a' : HostAgent} {w : Waiting} (h : takeResult rsp a w = .next a') :
    a'.display = a.display ∨ ∃ im, rsp.outImg = some im ∧ a'.display = some im := by
  cases w with
  | status => cases h; exact .inl rfl
  | channels dst =>
    obtain ⟨r, -, h⟩ := withResult_next h
    obtain ⟨g, -, h⟩ := withResult_next h
    obtain ⟨b, -, h⟩ := withResult_next h
    rcases dst with _ | ⟨nr, ng, nb⟩ <;> cases h <;> exact .inl rfl
  | pixel dst => obtain ⟨v, -, h⟩ := withResult_next h; cases h; simp
  | image dst => obtain ⟨v, hv, h⟩ := withResult_next h; cases h; exact .inr ⟨v, hv, rfl⟩
  | words dst => obtain ⟨v, -, h⟩ := withResult_next h; cases h; simp
  | bytes dst => obtain ⟨v, -, h⟩ := withResult_next h; cases h; simp
  | thenDecode w h' dst => obtain ⟨v, -, h⟩ := withResult_next h; cases h; simp
  | thenW2b dst => obtain ⟨v, -, h⟩ := withResult_next h; cases h; simp

/-! ### Delivering a response -/

/-- All that `deliver` can do with a next state: nothing, where the state does not hold the host, or write that host. -/
theorem deliver_cases {n : Nat} {s t : State} (h : deliver n s = .next t) :
    (t = s ∧ (s.hosts[n]? = none ∨ s.rsp = none)) ∨
    ∃ a a' rsp, s.hosts[n]? = some a ∧ s.rsp = some rsp ∧ receive rsp a = .next a' ∧ t = s.setHost n a' := by
  unfold deliver at h
  split at h
  · next a rsp ha hr =>
    split at h
    · next a' hrec => cases h; exact .inr ⟨a, a', rsp, ha, hr, hrec, rfl⟩
    · cases h
    · cases h
  · next hno =>
    cases h
    refine .inl ⟨rfl, ?_⟩
    cases ha : s.hosts[n]? with
    | none => exact .inl rfl
    | some a =>
      cases hr : s.rsp with
      | none => exact .inr rfl
      | some rsp => exact absurd hr (hno a rsp ha)

/-- A response for a host that the state does not hold changes nothing more. -/
theorem deliver_none (n : Nat) (s : State) (h : s.hosts[n]? = none) : deliver n s = .next s := by
  unfold deliver
  rw [h]

theorem deliver_some {n : Nat} {s : State} {a a' : HostAgent} {rsp : Response} (ha : s.hosts[n]? = some a)
    (hr : s.rsp = some rsp) (hrec : receive rsp a = .next a') : deliver n s = .next (s.setHost n a') := by
  unfold deliver
  rw [ha, hr]
  simp only [hrec]

/-! ### The block's move -/

theorem blockMove_idle (s : State) (h : s.pending = []) : blockMove s = .next s := by
  simp [blockMove, fetch_nil s h]

/-- The block's move with a request pending: its instruction answers, and the response is delivered. -/
theorem blockMove_cons (s : State) (e : Pending) (rest : List Pending) (h : s.pending = e :: rest) :
    ∃ rsp record, exec (decodeCommand e.req.cmd) { s with pending := rest, req := e.req } =
        .next ({ s with pending := rest, req := e.req }.answer rsp record) ∧
      blockMove s = deliver e.sender ({ s with pending := rest, req := e.req }.answer rsp record) := by
  obtain ⟨rsp, record, hx⟩ := exec_answers (decodeCommand e.req.cmd) { s with pending := rest, req := e.req }
  refine ⟨rsp, record, hx, ?_⟩
  simp only [blockMove, fetch_cons s e rest h, State.instr, hx]

/-! ### The hosts' moves -/

/-- All that a host's move can do with a next state. -/
theorem hostMove_cases {n : Nat} {s t : State} (h : hostMove n s = .next t) :
    t = s ∨
    (∃ a field dst rest v, s.hosts[n]? = some a ∧ a.waiting = none ∧ a.program = .read field dst :: rest ∧
      readField a.last field = .ok v ∧ t = s.setHost n ({ a with program := rest }.bindTo dst v)) ∨
    (∃ a cmd rest req wait, s.hosts[n]? = some a ∧ a.waiting = none ∧ a.program = .send cmd :: rest ∧
      requestOf s.params a.bindings cmd = .ok (req, wait) ∧
      t = (s.setHost n { a with program := rest, waiting := some wait }).accept n req) := by
  unfold hostMove at h
  split at h
  · cases h; exact .inl rfl
  · next a ha =>
    split at h
    · next field dst rest hw hp =>
      split at h
      · next v hv => cases h; exact .inr (.inl ⟨a, field, dst, rest, v, ha, hw, hp, hv, rfl⟩)
      · cases h
    · next cmd rest hw hp =>
      split at h
      · next req wait hq => cases h; exact .inr (.inr ⟨a, cmd, rest, req, wait, ha, hw, hp, hq, rfl⟩)
      · cases h
    · cases h; exact .inl rfl

/-! ### A step -/

/-- All that a step can be: the block's move, a host's, or a reset. -/
theorem step_cases (s : State) :
    (∃ ms, s.blockNext = true ∧ step s = blockMove { s with moves := ms }) ∨
    (∃ n ms, s.moves = .host n :: ms ∧ step s = hostMove n { s with moves := ms }) ∨
    (∃ ms, s.moves = .reset :: ms ∧ step s = .next { s with moves := ms }.resetBlock) := by
  rcases hm : s.moves with _ | ⟨_ | n | _, ms⟩
  · refine .inl ⟨[], by simp [State.blockNext, hm], ?_⟩
    have hs : { s with moves := [] } = s := by rw [← hm]
    simp [step, hm, hs]
  · exact .inl ⟨ms, by simp [State.blockNext, hm], by simp [step, hm]⟩
  · exact .inr (.inl ⟨n, ms, rfl, by simp [step, hm]⟩)
  · exact .inr (.inr ⟨ms, rfl, by simp [step, hm]⟩)

theorem step_host (s : State) (n : Nat) (ms : List Move) (h : s.moves = .host n :: ms) :
    step s = hostMove n { s with moves := ms } := by
  simp [step, h]

/-- One step of a run, in terms of the model's own step. -/
theorem run_of_step {k : Nat} {s t : State} (h : step s = .next t) :
    Sys2Proof.core.run (k + 1) s = Sys2Proof.core.run k t := by
  have hs : Sys2Proof.core.step s = .next t := h
  simp only [Host.Core.run, hs]

/-! ### Good hosts -/

theorem goodHost_iff (a : HostAgent) : goodHost a = true ↔ bindingsWf a.bindings = true ∧
    (∀ nv ∈ a.bindings, goodValue nv.2 = true) ∧ (∀ r, a.last = some r → goodResponse r = true) ∧
    (∀ im, a.display = some im → im.wf = true) := by
  simp [goodHost, Option.all_eq_true, and_assoc]

theorem bindTo_good {a : HostAgent} (h : goodHost a = true) (dst : Option Nat) (v : Value) (hv : goodValue v = true) :
    goodHost (a.bindTo dst v) = true := by
  cases dst with
  | none => exact h
  | some n =>
    rw [goodHost_iff] at h ⊢
    refine ⟨bindName_wf _ _ _ h.1, fun nv hn => ?_, h.2.2⟩
    rcases mem_bindName hn with rfl | hn
    · exact hv
    · exact h.2.1 _ hn

end Sys2Proof.Machine
end

