-- ==== Sys2Proof/Laws/PerInstr.lean ====
section
/-! SUPPORT. The family RowOfEncoding: a well-formed instruction's command byte has the fields the opcode table gives its
row (R60, R61), instruction by instruction. -/

namespace Sys2Proof.Laws.RowOfEncoding

open Sys2Proof

/-- A well-formed instruction's command byte is read back as the instruction, and it is reserved or has a non-zero `RSV`
exactly where the instruction is ILLEGAL. -/
def Statement (i : Instr) : Prop :=
  i.wellFormed = true →
    decodeCommand (encodeCommand i) = i ∧
      (isIllegalCommand (encodeCommand i) = true ↔ i = .illegal (encodeCommand i))

theorem unpack565 : Statement .unpack565 := by unfold Statement; decide

theorem pack888 : Statement .pack888 := by unfold Statement; decide

theorem decode : Statement .decode := by unfold Statement; decide

theorem encode : Statement .encode := by unfold Statement; decide

theorem b2w : Statement .b2w := by unfold Statement; decide

theorem w2b : Statement .w2b := by unfold Statement; decide

theorem illegal (cmd : U8) : Statement (.illegal cmd) := by
  intro h
  refine ⟨?_, by simp [encodeCommand, show isIllegalCommand cmd = true from h]⟩
  have h : isIllegalCommand cmd = true := h
  show decodeCommand cmd = .illegal cmd
  rcases decodeCommand_cases cmd with ⟨rfl, -⟩ | ⟨rfl, -⟩ | ⟨rfl, -⟩ | ⟨rfl, -⟩ | ⟨rfl, -⟩ | ⟨rfl, -⟩ | ⟨-, hd⟩
  all_goals first | exact hd | exact absurd h (by decide)

end Sys2Proof.Laws.RowOfEncoding
end

