-- ==== Sys2Proof/Laws/Pixels.lean ====
section
/-! SUPPORT. The pixel operations on the fields of a packed pixel and of a channel (R63, R83, R91), bit by bit. -/

namespace Sys2Proof.Machine

theorem unpackR_fields (r : BitVec 5) (g : BitVec 6) (b : BitVec 5) : unpackR (r ++ g ++ b) = r ++ 0#3 := by
  apply BitVec.eq_of_getLsbD_eq
  intro i hi
  simp only [unpackR, trunc8, BitVec.getLsbD_append, BitVec.getLsbD_setWidth, BitVec.getLsbD_ushiftRight,
    BitVec.getLsbD_and]
  interval_cases i <;> simp

theorem unpackG_fields (r : BitVec 5) (g : BitVec 6) (b : BitVec 5) : unpackG (r ++ g ++ b) = g ++ 0#2 := by
  apply BitVec.eq_of_getLsbD_eq
  intro i hi
  simp only [unpackG, trunc8, BitVec.getLsbD_append, BitVec.getLsbD_setWidth, BitVec.getLsbD_ushiftRight,
    BitVec.getLsbD_and]
  interval_cases i <;> simp

theorem unpackB_fields (r : BitVec 5) (g : BitVec 6) (b : BitVec 5) : unpackB (r ++ g ++ b) = b ++ 0#3 := by
  apply BitVec.eq_of_getLsbD_eq
  intro i hi
  simp only [unpackB, trunc8, BitVec.getLsbD_append, BitVec.getLsbD_setWidth, BitVec.getLsbD_shiftLeft,
    BitVec.getLsbD_and]
  interval_cases i <;> simp

theorem packPixel_fields (r : BitVec 5) (g : BitVec 6) (b : BitVec 5) (x : BitVec 3) (y : BitVec 2) (z : BitVec 3) :
    packPixel (r ++ x) (g ++ y) (b ++ z) = r ++ g ++ b := by
  apply BitVec.eq_of_getLsbD_eq
  intro i hi
  simp only [packPixel, zext16, BitVec.getLsbD_append, BitVec.getLsbD_setWidth, BitVec.getLsbD_shiftLeft,
    BitVec.getLsbD_ushiftRight, BitVec.getLsbD_and, BitVec.getLsbD_or]
  interval_cases i <;> simp

/-- Every packed pixel is its three fields (R63). -/
theorem pixel_eq_fields (p : U16) : p = p.extractLsb' 11 5 ++ p.extractLsb' 5 6 ++ p.extractLsb' 0 5 := by
  apply BitVec.eq_of_getLsbD_eq
  intro i hi
  simp only [BitVec.getLsbD_append, BitVec.getLsbD_extractLsb']
  interval_cases i <;> simp

/-- A red or blue channel is its high five bits and its low three. -/
theorem channel_eq_5_3 (c : U8) : c = c.extractLsb' 3 5 ++ c.extractLsb' 0 3 := by
  apply BitVec.eq_of_getLsbD_eq
  intro i hi
  simp only [BitVec.getLsbD_append, BitVec.getLsbD_extractLsb']
  interval_cases i <;> simp

/-- A green channel is its high six bits and its low two. -/
theorem channel_eq_6_2 (c : U8) : c = c.extractLsb' 2 6 ++ c.extractLsb' 0 2 := by
  apply BitVec.eq_of_getLsbD_eq
  intro i hi
  simp only [BitVec.getLsbD_append, BitVec.getLsbD_extractLsb']
  interval_cases i <;> simp

/-- The bits that packing keeps of a red or blue channel (R92). -/
theorem high5_eq_mask (c : U8) : c.extractLsb' 3 5 ++ 0#3 = c &&& 0xF8#8 := by
  apply BitVec.eq_of_getLsbD_eq
  intro i hi
  simp only [BitVec.getLsbD_append, BitVec.getLsbD_extractLsb', BitVec.getLsbD_and]
  interval_cases i <;> simp

/-- The bits that packing keeps of a green channel (R92). -/
theorem high6_eq_mask (c : U8) : c.extractLsb' 2 6 ++ 0#2 = c &&& 0xFC#8 := by
  apply BitVec.eq_of_getLsbD_eq
  intro i hi
  simp only [BitVec.getLsbD_append, BitVec.getLsbD_extractLsb', BitVec.getLsbD_and]
  interval_cases i <;> simp

end Sys2Proof.Machine
end

