-- ==== Sys2Proof/Tests/Slice0.lean ====
section
/-! SUPPORT. The model's tests: the check of WellFormed refuses each kind of ill-formed term, the words of the opcode
table decode to their instructions, vectors of spec/95_test_vectors.md, and for each obligation with hypotheses a
witness that they can be met together. -/

namespace Sys2Proof.Tests

open Sys2Proof Sys2Proof.Machine

/-! ### Small states -/

/-- An instance with the given byte order and capacity, and 16-bit dimensions. -/
def paramsOf (e : Endian) (m : Option ℕ+) : Params := { endian := e, dimBits := 16, maxPixels := m }

/-- A reset state of an instance, whose request fields are `q`. -/
def stateOf (p : Params) (q : Request) : State := { State.reset with params := p, req := q }

/-- A request that names a whole image. -/
def imageRequest (w h : Nat) (ws : List U16) (bs : List U8) : Request :=
  { Request.blank with width := w, height := h, inWords := ws, inBytes := bs }

/-- The response a step or a meaning leaves. -/
def responseOf : Outcome → Option Response
  | .next t => t.rsp
  | .fault _ => none
  | .refused _ => none

/-! ### WellFormed: an `illegal` of a byte that is not illegal is refused -/

theorem test_wellFormed_refuses_legal_bytes :
    [0x00#8, 0x01#8, 0x02#8, 0x03#8, 0x04#8, 0x05#8].all (fun c => !(Instr.illegal c).wellFormed) = true := by decide

theorem test_wellFormed_op : (Instr.illegal 0x06).wellFormed = true ∧ (Instr.illegal 0x07).wellFormed = true := by decide

theorem test_wellFormed_rsv : (Instr.illegal 0x08).wellFormed = true ∧ (Instr.illegal 0x80).wellFormed = true := by decide

/-! ### Requests that the port cannot carry are refused (R67: 16-bit dimensions here) -/

theorem test_fits_refuses_width :
    (imageRequest 65536 1 [] []).fits (paramsOf .little none) = false ∧
      (imageRequest 65535 1 [] []).fits (paramsOf .little none) = true := by decide

theorem test_fits_refuses_height : (imageRequest 1 65536 [] []).fits (paramsOf .little none) = false := by decide

/-! ### Decoding: words written out from R60 and R61, RSV then OP -/

theorem test_decode_unpack565 : decodeCommand 0b00000000#8 = .unpack565 := by decide
theorem test_decode_pack888 : decodeCommand 0b00000001#8 = .pack888 := by decide
theorem test_decode_decode : decodeCommand 0b00000010#8 = .decode := by decide
theorem test_decode_encode : decodeCommand 0b00000011#8 = .encode := by decide
theorem test_decode_b2w : decodeCommand 0b00000100#8 = .b2w := by decide
theorem test_decode_w2b : decodeCommand 0b00000101#8 = .w2b := by decide

/-- spec/95_test_vectors.md 2.7. -/
theorem test_decode_illegal :
    [0x06#8, 0x07#8, 0x08#8, 0x80#8, 0xFF#8, 0x0A#8].all (fun c => decodeCommand c == .illegal c) = true := by decide

theorem test_decode_no_bytes : (decodeBytes []).toOption = none := by decide

theorem test_tableWord : decodeTableWord 8 3 = some .encode ∧ decodeTableWord 16 3 = none := by decide

/-! ### UNPACK565 (spec/95_test_vectors.md 2.1) -/

theorem test_unpack_mixed : unpackPixel 0x1234 = ⟨16, 68, 160⟩ ∧ unpackPixel 0xA5A5 = ⟨160, 180, 40⟩ := by decide

theorem test_unpack_max :
    responseOf (exec .unpack565 (stateOf (paramsOf .big none) { Request.blank with p := 0xFFFF })) =
      some { bareResponse 0 with outR := some 248, outG := some 252, outB := some 248 } := by decide

/-! ### PACK888 (2.2) -/

theorem test_pack_mixed : packPixel 200 100 50 = 0xCB26 ∧ packPixel 0x12 0x34 0x56 = 0x11AA := by decide

theorem test_pack_low_bits :
    responseOf (exec .pack888 (stateOf (paramsOf .big none) { Request.blank with r := 249, g := 253, b := 249 })) =
      some { bareResponse 0 with outP := some 0xFFFF } := by decide

/-! ### DECODE (2.3) -/

theorem test_decode_order :
    responseOf (exec .decode (stateOf (paramsOf .little none) (imageRequest 3 1 [0x0001, 0x0020, 0x0800] []))) =
      some { bareResponse 0 with outImg := some ⟨3, 1, [⟨0, 0, 8⟩, ⟨0, 4, 0⟩, ⟨8, 0, 0⟩]⟩ } := by decide

theorem test_decode_capacity_before_length :
    responseOf (exec .decode (stateOf (paramsOf .little (some 4)) (imageRequest 3 2 [1] []))) =
      some (bareResponse 4) := by decide

/-! ### ENCODE (2.4) -/

theorem test_encode_pixels :
    responseOf (exec .encode (stateOf (paramsOf .little none)
      (imageRequest 2 2 [] [0x12, 0x34, 0x56, 7, 3, 7, 249, 253, 249, 16, 68, 160]))) =
      some { bareResponse 0 with outWords := some [0x11AA, 0x0000, 0xFFFF, 0x1234] } := by decide

theorem test_encode_not_triples :
    responseOf (exec .encode (stateOf (paramsOf .little none) (imageRequest 1 1 [] [1, 2, 3, 4]))) =
      some (bareResponse 1) := by decide

/-! ### B2W (2.5) -/

theorem test_b2w_little_odd :
    responseOf (exec .b2w (stateOf (paramsOf .little none) (imageRequest 0 0 [] [0x34, 0x12, 0xCD, 0xAB, 0xEF]))) =
      some { bareResponse 0 with outWords := some [0x1234, 0xABCD] } := by decide

theorem test_b2w_big_odd :
    responseOf (exec .b2w (stateOf (paramsOf .big none) (imageRequest 0 0 [] [0x34, 0x12, 0xCD, 0xAB, 0xEF]))) =
      some { bareResponse 0 with outWords := some [0x3412, 0xCDAB] } := by decide

/-! ### W2B (2.6) -/

theorem test_w2b_little :
    responseOf (exec .w2b (stateOf (paramsOf .little none) (imageRequest 0 0 [0xF800, 0x001F] []))) =
      some { bareResponse 0 with outBytes := some [0x00, 0xF8, 0x1F, 0x00] } := by decide

theorem test_w2b_big :
    responseOf (exec .w2b (stateOf (paramsOf .big none) (imageRequest 0 0 [0xF800, 0x001F] []))) =
      some { bareResponse 0 with outBytes := some [0xF8, 0x00, 0x00, 0x1F] } := by decide

/-! ### ILLEGAL, and a step (2.3, last row: `Illegal` is checked before `Dim`) -/

theorem test_step_illegal_first :
    responseOf (step ((stateOf (paramsOf .little none) (imageRequest 0 0 [] [])).withFetchWord 8 0x0A)) =
      some (bareResponse 3) := by decide

/-! ### Hosts -/

/-- A host with a program and a byte buffer bound to name 0. -/
def hostOf (prog : List HostStmt) (file : List U8) : HostAgent :=
  { program := prog, waiting := none, last := none, bindings := [(0, .bytes file)], display := none }

/-- A state with one host, whose moves are `ms`. -/
def withHost (a : HostAgent) (ms : List Move) : State :=
  { stateOf (paramsOf .little (some 4)) Request.blank with hosts := [a], moves := ms }

/-- P1, step 1: RAWDECODE sends the B2W of the file. -/
theorem test_host_sends_first_request :
    (match step (withHost (hostOf [.send (.rawDecode 1 1 (.name 0) (some 1))] [0x00, 0xF8]) [.host 0]) with
      | .next t => t.pending == [⟨0, { Request.blank with cmd := 0x04, inBytes := [0x00, 0xF8] }⟩]
      | _ => false) = true := by decide

/-- P4, step 4: after an illegal command `OUT_R` holds no value. -/
theorem test_host_read_faults :
    (match step (withHost { hostOf [.read .outR none] [] with last := some (bareResponse 3) } [.host 0]) with
      | .fault (.noValue .outR) => true
      | _ => false) = true := by decide

/-! ### Witnesses: the hypotheses of the obligations can be met together -/

theorem witness_DecodeOfEncode : (Instr.illegal 0xFF).wellFormed = true ∧ Instr.decode.wellFormed = true := by decide

theorem witness_ChannelsAreShiftedFields :
    (stateOf (paramsOf .little none) { Request.blank with p := 0x8410 }).req.p =
      0b10000#5 ++ 0b100000#6 ++ 0b10000#5 := by decide

theorem witness_ChannelValueSets :
    (0 < 32 ∧ 0 < 64) ∧ (31 < 32 ∧ 63 < 64) ∧ BitVec.ofNat 8 (8 * 31) = 248#8 ∧ BitVec.ofNat 8 (4 * 63) = 252#8 := by
  decide

theorem witness_PackKeepsTopBits :
    (249#8 = 0b11111#5 ++ 0b001#3) ∧ (253#8 = 0b111111#6 ++ 0b01#2) ∧
      exec .pack888 (stateOf (paramsOf .little none) { Request.blank with r := 249, g := 253, b := 249 }) =
        .next ((stateOf (paramsOf .little none) { Request.blank with r := 249, g := 253, b := 249 }).answer
          { bareResponse 0 with outP := some (packPixel 249 253 249) } none) :=
  ⟨by decide, by decide, rfl⟩

/-- The pixel that packing gives can be a request's `P`, and both sides of the law's equivalence have cases. -/
theorem witness_LossyMaskingLaw :
    (stateOf (paramsOf .little none) { Request.blank with p := packPixel 249 253 249 }).req.p = packPixel 249 253 249 ∧
      (248#8 &&& 0x07#8 = 0#8) ∧ (249#8 &&& 0x07#8 ≠ 0#8) := ⟨rfl, by decide, by decide⟩

theorem witness_RepackingIsIdentity :
    let s := stateOf (paramsOf .little none)
      { Request.blank with r := unpackR 0x1234, g := unpackG 0x1234, b := unpackB 0x1234 }
    s.req.r = unpackR 0x1234 ∧ s.req.g = unpackG 0x1234 ∧ s.req.b = unpackB 0x1234 := ⟨rfl, rfl, rfl⟩

/-- An instance of at most four pixels. -/
def four : Params := paramsOf .little (some 4)

theorem witness_withinCapacity : withinCapacity four (2 * 2) := by
  intro limit h
  cases h
  decide

theorem witness_exceedsCapacity : exceedsCapacity four (5 * 1) := ⟨4, rfl, by decide⟩

/-- Each clause of DecodeFollowsPseudocode at the edge of its range: zero dimensions, one pixel over capacity, one word
short at capacity, and exactly at capacity. -/
theorem witness_DecodeFollowsPseudocode :
    ((stateOf four (imageRequest 0 5 [] [])).req.width = 0) ∧ ((stateOf four (imageRequest 2 0 [1, 2] [])).req.height = 0) ∧
    (let s := stateOf four (imageRequest 5 1 [] []);
      0 < s.req.width ∧ 0 < s.req.height ∧ exceedsCapacity s.params (s.req.width * s.req.height)) ∧
    (let s := stateOf four (imageRequest 2 2 [1, 2, 3] []);
      0 < s.req.width ∧ 0 < s.req.height ∧ withinCapacity s.params (s.req.width * s.req.height) ∧
        s.req.inWords.length ≠ s.req.width * s.req.height) ∧
    (let s := stateOf four (imageRequest 2 2 [1, 2, 3, 4] []);
      0 < s.req.width ∧ 0 < s.req.height ∧ withinCapacity s.params (s.req.width * s.req.height) ∧
        s.req.inWords.length = s.req.width * s.req.height) :=
  ⟨rfl, rfl, ⟨by decide, by decide, witness_exceedsCapacity⟩,
    ⟨by decide, by decide, witness_withinCapacity, by decide⟩,
    ⟨by decide, by decide, witness_withinCapacity, by decide⟩⟩

/-- A successful DECODE, for the statements about what it leaves. -/
theorem witness_DecodeKeepsRowMajorOrder :
    ∃ t r img, exec .decode (stateOf four (imageRequest 2 1 [0xF800, 0x07E0] [])) = .next t ∧ t.rsp = some r ∧
      r.outImg = some img ∧ img.pixelAt 1 0 = some ⟨0, 252, 0⟩ :=
  ⟨_, _, _, rfl, rfl, rfl, by decide⟩

theorem witness_DecodeMeetsImageInvariant :
    let s := stateOf four (imageRequest 1 1 [7] [])
    1 ≤ s.req.width ∧ 1 ≤ s.req.height ∧ withinCapacity s.params (s.req.width * s.req.height) ∧
      s.req.inWords.length = s.req.width * s.req.height :=
  ⟨by decide, by decide, fun limit h => by cases h; decide, by decide⟩

/-- A failing DECODE: a word short. -/
theorem witness_DecodeFailsWhole :
    (∃ t r, exec .decode (stateOf four (imageRequest 2 2 [1, 2, 3] [])) = .next t ∧ t.rsp = some r ∧ r.status ≠ 0) ∧
      (stateOf four (imageRequest 2 2 [1, 2, 3] [])).req.inWords.length ≠ 2 * 2 :=
  ⟨⟨_, _, rfl, rfl, by decide⟩, by decide⟩

/-- Each clause of EncodeFollowsPseudocode at the edge of its range. -/
theorem witness_EncodeFollowsPseudocode :
    ((stateOf four (imageRequest 0 1 [] [])).req.width = 0) ∧ ((stateOf four (imageRequest 1 0 [] [])).req.height = 0) ∧
    (let s := stateOf four (imageRequest 1 5 [] []);
      0 < s.req.width ∧ 0 < s.req.height ∧ exceedsCapacity s.params (s.req.width * s.req.height)) ∧
    (let s := stateOf four (imageRequest 1 1 [] [1, 2]);
      0 < s.req.width ∧ 0 < s.req.height ∧ withinCapacity s.params (s.req.width * s.req.height) ∧
        s.req.inBytes.length ≠ 3 * (s.req.width * s.req.height)) ∧
    (let s := stateOf four (imageRequest 1 1 [] [255, 254, 253]);
      0 < s.req.width ∧ 0 < s.req.height ∧ withinCapacity s.params (s.req.width * s.req.height) ∧
        s.req.inBytes.length = 3 * (s.req.width * s.req.height) ∧ s.req.inBytes[3 * 0]? = some 255 ∧
        s.req.inBytes[3 * 0 + 1]? = some 254 ∧ s.req.inBytes[3 * 0 + 2]? = some 253) :=
  ⟨rfl, rfl, ⟨by decide, by decide, 4, rfl, by decide⟩,
    ⟨by decide, by decide, fun limit h => by cases h; decide, by decide⟩,
    ⟨by decide, by decide, fun limit h => by cases h; decide, by decide, rfl, rfl, rfl⟩⟩

/-- ENCODE on a byte too many. -/
theorem witness_EncodeRejectsWrongLength :
    let s := stateOf four (imageRequest 1 1 [] [1, 2, 3, 4])
    s.req.inBytes.length ≠ 3 * (s.req.width * s.req.height) ∧ 0 < s.req.width ∧ 0 < s.req.height ∧
      withinCapacity s.params (s.req.width * s.req.height) :=
  ⟨by decide, by decide, by decide, fun limit h => by cases h; decide⟩

theorem witness_FlatLayoutIsRedGreenBlue :
    let ps : List Rgb888 := [⟨1, 2, 3⟩, ⟨4, 5, 6⟩]
    let s := stateOf four (imageRequest 2 1 [] (flattenPixels ps))
    ps[1]? = some ⟨4, 5, 6⟩ ∧ s.req.inBytes = flattenPixels ps ∧ ps.length = s.req.width * s.req.height ∧
      0 < s.req.width ∧ 0 < s.req.height ∧ withinCapacity s.params (s.req.width * s.req.height) :=
  ⟨rfl, rfl, rfl, by decide, by decide, fun limit h => by cases h; decide⟩

/-- ENCODE then DECODE of one pixel: the outer and the inner hypotheses. -/
theorem witness_DecodeOfEncodedImage :
    let s := stateOf four (imageRequest 1 1 [] [200, 100, 50])
    let s' := stateOf four (imageRequest 1 1 [0xCB26] [])
    1 ≤ s.req.width ∧ 1 ≤ s.req.height ∧ withinCapacity s.params (s.req.width * s.req.height) ∧
      s.req.inBytes.length = 3 * (s.req.width * s.req.height) ∧
      responseOf (exec .encode s) = some { bareResponse 0 with outWords := some [0xCB26] } ∧
      s'.params = s.params ∧ s'.req.width = s.req.width ∧ s'.req.height = s.req.height ∧ s'.req.inWords = [0xCB26] :=
  ⟨by decide, by decide, fun limit h => by cases h; decide, by decide, by decide, rfl, rfl, rfl, rfl⟩

/-- DECODE then ENCODE of one pixel: the outer and the inner hypotheses. -/
theorem witness_EncodeOfDecodedImage :
    let s := stateOf four (imageRequest 1 1 [0x1234] [])
    let s' := stateOf four (imageRequest 1 1 [] (flattenPixels [⟨16, 68, 160⟩]))
    1 ≤ s.req.width ∧ 1 ≤ s.req.height ∧ withinCapacity s.params (s.req.width * s.req.height) ∧
      s.req.inWords.length = s.req.width * s.req.height ∧
      responseOf (exec .decode s) = some { bareResponse 0 with outImg := some ⟨1, 1, [⟨16, 68, 160⟩]⟩ } ∧
      s'.params = s.params ∧ s'.req.width = s.req.width ∧ s'.req.height = s.req.height ∧
      s'.req.inBytes = flattenPixels [⟨16, 68, 160⟩] :=
  ⟨by decide, by decide, fun limit h => by cases h; decide, by decide, by decide, rfl, rfl, rfl, rfl⟩

theorem witness_BytePairAccesses :
    ([1, 2, 3, 4] : List U8)[2 * 1]? = some 3 ∧ ([1, 2, 3, 4] : List U8)[2 * 1 + 1]? = some 4 := ⟨rfl, rfl⟩

theorem witness_B2wAnswersWords :
    let s := stateOf four (imageRequest 0 0 [] [0x1F, 0x00, 0xAA])
    0 < s.req.inBytes.length / 2 ∧ s.req.inBytes[2 * 0]? = some 0x1F ∧ s.req.inBytes[2 * 0 + 1]? = some 0x00 :=
  ⟨by decide, rfl, rfl⟩

theorem witness_B2wDropsOddByte :
    (stateOf four (imageRequest 0 0 [] ([0x1F, 0x00] ++ [0xAA]))).req.inBytes = [0x1F, 0x00] ++ [0xAA] ∧
      ([0x1F, 0x00] : List U8).length = 2 * 1 := ⟨rfl, rfl⟩

theorem witness_W2bIsItsLoopOfWrites :
    ([9, 9, 9, 9] : List U8).length = 2 * (stateOf four (imageRequest 0 0 [0xF800, 0x001F] [])).req.inWords.length := rfl

theorem witness_W2bBytesOfEachWord :
    (stateOf four (imageRequest 0 0 [0xF800, 0x001F] [])).req.inWords[1]? = some 0x001F := rfl

/-- The views: what W2B gives can be B2W's input on an instance with the same byte order, and with the other one. -/
theorem witness_ViewsAreInverse_and_OtherEndianSwapsBytes :
    responseOf (exec .w2b (stateOf four (imageRequest 0 0 [0x0102] []))) =
        some { bareResponse 0 with outBytes := some [0x02, 0x01] } ∧
      (stateOf four (imageRequest 0 0 [] [0x02, 0x01])).params.endian = four.endian ∧
      (stateOf (paramsOf .big none) (imageRequest 0 0 [] [0x02, 0x01])).params.endian ≠ four.endian := by decide

/-- The other direction: what B2W gives of three bytes can be W2B's input. -/
theorem witness_ViewsAreInverse_odd :
    responseOf (exec .b2w (stateOf four (imageRequest 0 0 [] [0x1F, 0x00, 0xAA]))) =
        some { bareResponse 0 with outWords := some [0x001F] } ∧
      (stateOf four (imageRequest 0 0 [0x001F] [])).req.inWords = [0x001F] := by decide

/-- P3, steps 4 and 5: five bytes make a 2 by 1 image. -/
theorem witness_RawFileLengthsAccepted :
    let s := stateOf four (imageRequest 0 0 [] [0x00, 0xF8, 0x1F, 0x00, 0x77])
    let s' := stateOf four (imageRequest 2 1 [0xF800, 0x001F] [])
    responseOf (exec .b2w s) = some { bareResponse 0 with outWords := some [0xF800, 0x001F] } ∧
      s'.req.inWords = [0xF800, 0x001F] ∧ 0 < s'.req.width ∧ 0 < s'.req.height ∧
      withinCapacity s'.params (s'.req.width * s'.req.height) ∧
      s.req.inBytes.length = 2 * (s'.req.width * s'.req.height) + 1 :=
  ⟨by decide, rfl, by decide, by decide, fun limit h => by cases h; decide, by decide⟩

theorem witness_EncodedFileLayout :
    let s := stateOf four (imageRequest 2 1 [] [200, 100, 50, 1, 2, 3])
    let s' := stateOf four (imageRequest 0 0 [0xCB26, 0x0000] [])
    0 < s.req.width ∧ 0 < s.req.height ∧ withinCapacity s.params (s.req.width * s.req.height) ∧
      s.req.inBytes.length = 3 * (s.req.width * s.req.height) ∧
      responseOf (exec .encode s) = some { bareResponse 0 with outWords := some [0xCB26, 0x0000] } ∧
      s'.params = s.params ∧ s'.req.inWords = [0xCB26, 0x0000] :=
  ⟨by decide, by decide, fun limit h => by cases h; decide, by decide, by decide, rfl, rfl⟩

/-- UnwrittenFieldsFault: a failed request, a field not listed, and a listed field of a success. -/
theorem witness_UnwrittenFieldsFault :
    (∃ t r, exec (.illegal 0x80) (stateOf four Request.blank) = .next t ∧ t.rsp = some r ∧ r.status ≠ 0 ∧
      RspField.outR ≠ .status) ∧
    (∃ t r, exec .pack888 (stateOf four Request.blank) = .next t ∧ t.rsp = some r ∧ r.status = 0 ∧
      RspField.outP ∈ resultFields .pack888 ∧ RspField.outR ∉ resultFields .pack888) :=
  ⟨⟨_, _, rfl, rfl, by decide, by decide⟩, ⟨_, _, rfl, rfl, by decide, by decide, by decide⟩⟩

theorem witness_UnreadFieldsAreIgnored :
    let s := stateOf four { Request.blank with cmd := 0x01, r := 7, inWords := [1] }
    let s' := { stateOf four { Request.blank with cmd := 0x01, r := 7, p := 0xFFFF } with rsp := some (bareResponse 3) }
    s.params = s'.params ∧ s.req.cmd = s'.req.cmd ∧
      operandsAgree s.req s'.req (decodeCommand s.req.cmd) = true := by decide

theorem witness_StatusTellsTheCause :
    ∃ t r, exec (decodeCommand (stateOf four { imageRequest 2 2 [1] [] with cmd := 0x02 }).req.cmd)
        (stateOf four { imageRequest 2 2 [1] [] with cmd := 0x02 }) = .next t ∧ t.rsp = some r ∧ r.status = 1 :=
  ⟨_, _, rfl, rfl, by decide⟩

/-- FirstErrorWins: an illegal byte beside zero dimensions; and a DECODE and an ENCODE with a wrong length beside a zero
dimension, beside too many pixels, and alone. -/
theorem witness_FirstErrorWins :
    isIllegalCommand (stateOf four { imageRequest 0 0 [] [] with cmd := 0x0A }).req.cmd = true ∧
    (let s := stateOf four { imageRequest 2 0 [1, 2] [] with cmd := 0x02 };
      s.req.cmd = 0x02 ∧ s.req.height = 0 ∧ s.req.inWords.length ≠ s.req.width * s.req.height) ∧
    (let s := stateOf four { imageRequest 5 1 [] [1] with cmd := 0x03 };
      s.req.cmd = 0x03 ∧ 0 < s.req.width ∧ 0 < s.req.height ∧ exceedsCapacity s.params (s.req.width * s.req.height) ∧
        s.req.inBytes.length ≠ 3 * (s.req.width * s.req.height)) ∧
    (let s := stateOf four { imageRequest 2 2 [] [1, 2] with cmd := 0x03 };
      s.req.cmd = 0x03 ∧ 0 < s.req.width ∧ 0 < s.req.height ∧ withinCapacity s.params (s.req.width * s.req.height) ∧
        s.req.inBytes.length ≠ 3 * (s.req.width * s.req.height)) ∧
    (let s := stateOf four { imageRequest 2 2 [1, 2, 3] [] with cmd := 0x02 };
      s.req.cmd = 0x02 ∧ 0 < s.req.width ∧ 0 < s.req.height ∧ withinCapacity s.params (s.req.width * s.req.height) ∧
        s.req.inWords.length ≠ s.req.width * s.req.height) :=
  ⟨by decide, ⟨rfl, rfl, by decide⟩, ⟨rfl, by decide, by decide, witness_exceedsCapacity, by decide⟩,
    ⟨rfl, by decide, by decide, witness_withinCapacity, by decide⟩,
    ⟨rfl, by decide, by decide, witness_withinCapacity, by decide⟩⟩

/-! ### Witnesses for steps and hosts -/

/-- A host that waits for the image of the DECODE it has sent. -/
def waitingHost : HostAgent := { hostOf [] [] with waiting := some (.image (some 1)) }

/-- A pending DECODE of one pixel. -/
def pendingDecode : Pending := ⟨0, { imageRequest 1 1 [0x8410] [] with cmd := 0x02 }⟩

/-- A pending illegal command of a sender that the state does not hold. -/
def pendingIllegal : Pending := ⟨7, { Request.blank with cmd := 0x06 }⟩

/-- Host 0 waits for its DECODE; another request is pending behind it. -/
def busy : State :=
  { stateOf four Request.blank with pending := [pendingDecode, pendingIllegal], hosts := [waitingHost] }

theorem witness_Inv : busy.Inv where
  requests_fit := by decide
  response_good := by intro r h; cases h
  record_agrees := by decide
  hosts_good := by decide
  senders_wait := by decide
  one_at_a_time := by decide

theorem witness_Inv_swapped : { busy with pending := [pendingIllegal, pendingDecode] }.Inv where
  requests_fit := by decide
  response_good := by intro r h; cases h
  record_agrees := by decide
  hosts_good := by decide
  senders_wait := by decide
  one_at_a_time := by decide

/-- The block's step on the host's DECODE: the hypotheses of the statements about steps, with the host's display changed. -/
theorem witness_busy_step : ∃ t a', step busy = .next t ∧ busy.hosts[0]? = some waitingHost ∧ t.hosts[0]? = some a' ∧
    a'.display ≠ waitingHost.display ∧ busy.blockNext = true ∧ busy.pending = [pendingDecode, pendingIllegal] ∧
    busy.moves = [] := by
  refine ⟨_, _, rfl, rfl, rfl, by decide, rfl, rfl, rfl⟩

/-- StepKeepsInvariant, BlockNeverStalls and PendingRequestsAllAnswered. -/
theorem witness_StepKeepsInvariant_and_BlockNeverStalls : ∃ t, busy.Inv ∧ step busy = .next t ∧ busy.moves = [] ∧
    busy.blockNext = true ∧ busy.pending = [pendingDecode, pendingIllegal] := ⟨_, witness_Inv, rfl, rfl, rfl, rfl⟩

theorem witness_StepPerformsTheDecodedInstruction :
    ((busy.moves = [] ∧ ([] : List Move) = []) ∨ busy.moves = .block :: []) ∧
      busy.pending = pendingDecode :: [pendingIllegal] ∧ decodeBytes [pendingDecode.req.cmd] = .ok (.decode, []) ∧
      ({ busy with pending := [pendingIllegal] } : State).hosts[pendingIllegal.sender]? = none :=
  ⟨.inl ⟨rfl, rfl⟩, rfl, rfl, rfl⟩

theorem witness_ResponseDependsOnRequestOnly :
    ∃ t t', busy.params = ({ busy with rsp := some (bareResponse 3), hosts := [] } : State).params ∧
      step busy = .next t ∧ step { busy with rsp := some (bareResponse 3), hosts := [] } = .next t' :=
  ⟨_, _, rfl, rfl, rfl⟩

theorem witness_ParametersNeverChange : ∃ t, Reaches busy t ∧ t.params = four :=
  ⟨_, Reaches.tail _ _ Reaches.refl rfl, rfl⟩

/-- ResetEmptiesThePorts and ResetMoveKeepsTheRest. -/
theorem witness_ResetEmptiesThePorts : ({ busy with moves := [.reset] } : State).moves = .reset :: [] := rfl

theorem witness_OrderBetweenSendersIsFree :
    busy.moves = [] ∧ pendingDecode.sender ≠ pendingIllegal.sender ∧
      { busy with pending := pendingDecode :: pendingIllegal :: [] }.Inv := ⟨rfl, by decide, witness_Inv⟩

/-- DisplayChangesOnlyOnDecodeOk, second clause: the host's DECODE fails. -/
theorem witness_failed_step :
    let s := { busy with pending := [⟨0, { imageRequest 2 2 [1, 2, 3] [] with cmd := 0x02 }⟩] }
    ∃ t r a', step s = .next t ∧ s.hosts[0]? = some waitingHost ∧ t.hosts[0]? = some a' ∧ s.blockNext = true ∧
      t.rsp = some r ∧ r.status ≠ 0 := by
  refine ⟨_, _, _, rfl, rfl, rfl, rfl, rfl, by decide⟩

/-- A host whose latest response is that of an illegal command reads `OUT_R`. -/
theorem witness_HostReadOfNoValueFaults :
    let a := { hostOf [.read .outR none] [] with last := some (bareResponse 3) }
    let s := withHost a [.host 0]
    ∃ v, exec (.illegal 0x80) (stateOf four Request.blank) = .next v ∧ v.rsp = some (bareResponse 3) ∧
      (bareResponse 3).status ≠ 0 ∧ RspField.outR ≠ .status ∧ s.moves = .host 0 :: [] ∧ s.hosts[0]? = some a ∧
      a.waiting = none ∧ a.program = .read .outR none :: [] ∧ a.last = some (bareResponse 3) :=
  ⟨_, rfl, rfl, by decide, by decide, rfl, rfl, rfl, rfl, rfl⟩

/-- A host that has no response yet reads `STATUS`. -/
theorem witness_HostReadOfNoValueFaults_before_any_response :
    let a := hostOf [.read .status none] []
    let s := withHost a [.host 0]
    s.moves = .host 0 :: [] ∧ s.hosts[0]? = some a ∧ a.waiting = none ∧ a.program = .read .status none :: [] ∧
      a.last = none :=
  ⟨rfl, rfl, rfl, rfl, rfl⟩

/-- HostsAreIsolated: a step that does change host 0. -/
theorem witness_HostsAreIsolated : ∃ t, step busy = .next t ∧ t.hosts[0]? ≠ busy.hosts[0]? :=
  ⟨_, rfl, by decide⟩

theorem witness_StatementsMakeTheirRequests :
    (65535 < 2 ^ (four.dimBits : Nat)) ∧ lookupName [(0, .bytes [1, 2]), (3, .word 7)] 3 = some (.word 7) ∧
      lookupName [(0, .bytes [1, 2]), (3, .byte 7)] 3 = some (.byte 7) ∧
      lookupName [(0, .bytes [1, 2]), (3, .words [7])] 3 = some (.words [7]) ∧
      lookupName [(0, .bytes [1, 2])] 0 = some (.bytes [1, 2]) := by decide

/-- A host about to send a RAWDECODE of the file bound to name 0: HostMoveSendsItsRequest and the first half of
MacrosAreTheirTwoRequests. -/
theorem witness_HostMoveSendsItsRequest_and_RawDecode :
    let a := hostOf [.send (.rawDecode 1 1 (.name 0) (some 1))] [0x00, 0xF8]
    let s := withHost a [.host 0, .block, .host 0, .block]
    s.moves = .host 0 :: .block :: .host 0 :: .block :: [] ∧ s.hosts[0]? = some a ∧ a.waiting = none ∧
      a.program = .send (.rawDecode 1 1 (.name 0) (some 1)) :: [] ∧ s.pending = [] ∧
      lookupName a.bindings 0 = some (.bytes [0x00, 0xF8]) ∧ 1 < 2 ^ (s.params.dimBits : Nat) ∧
      (∃ q w, requestOf s.params a.bindings (.rawDecode 1 1 (.name 0) (some 1)) = .ok (q, w)) :=
  ⟨rfl, rfl, rfl, rfl, rfl, by decide, by decide, _, _, rfl⟩

/-- The second half: a RAWENCODE whose ENCODE succeeds, and one whose ENCODE fails (P3, step 3). -/
theorem witness_RawEncode :
    (let a := hostOf [.send (.rawEncode 1 1 (.lit [9, 9, 9]) (some 1))] [];
      let s := withHost a [.host 0, .block, .host 0, .block];
      s.pending = [] ∧ s.hosts[0]? = some a ∧ a.program = .send (.rawEncode 1 1 (.lit [9, 9, 9]) (some 1)) :: [] ∧
        responseOf (exec .encode { s with
          req := { Request.blank with cmd := 0x03, width := 1, height := 1, inBytes := [9, 9, 9] } }) =
          some { bareResponse 0 with outWords := some [0x0841] }) ∧
    (let a := hostOf [.send (.rawEncode 1 1 (.lit [9, 9, 9, 9]) (some 1))] [];
      let s := withHost a [.host 0, .block];
      s.pending = [] ∧ s.hosts[0]? = some a ∧ a.program = .send (.rawEncode 1 1 (.lit [9, 9, 9, 9]) (some 1)) :: [] ∧
        responseOf (exec .encode { s with
          req := { Request.blank with cmd := 0x03, width := 1, height := 1, inBytes := [9, 9, 9, 9] } }) =
          some (bareResponse 1)) :=
  ⟨⟨rfl, rfl, rfl, by decide⟩, ⟨rfl, rfl, rfl, by decide⟩⟩

/-- DimensionsMustFit: the least width that does not fit, and dimensions that do, 0 among them; for DECODE and ENCODE. -/
theorem witness_DimensionsMustFit :
    (let a := hostOf [.send (.decode 65536 1 (.lit []) none)] [];
      let s := withHost a [.host 0];
      s.moves = .host 0 :: [] ∧ s.hosts[0]? = some a ∧ a.waiting = none ∧
        2 ^ (s.params.dimBits : Nat) ≤ 65536) ∧
    (let a := hostOf [.send (.encode 0 65535 (.lit []) none)] [];
      let s := withHost a [.host 0];
      s.moves = .host 0 :: [] ∧ s.hosts[0]? = some a ∧ a.waiting = none ∧
        0 < 2 ^ (s.params.dimBits : Nat) ∧ 65535 < 2 ^ (s.params.dimBits : Nat)) :=
  ⟨⟨rfl, rfl, rfl, by decide⟩, ⟨rfl, rfl, rfl, by decide, by decide⟩⟩

end Sys2Proof.Tests
end

section
/-! The response to one request (spec/10_state.md): which result fields an instruction writes (R23, R25), and which
request fields its response depends on (R22). -/

namespace Sys2Proof.Machine

/-! ### Reading a response field -/

/-- A read of a response succeeds exactly where the field holds a value. -/
theorem exists_readField_eq_ok_iff (rsp : Response) (f : RspField) :
    (∃ v, readField (some rsp) f = .ok v) ↔ (responseValue rsp f).isSome := by
  cases h : responseValue rsp f <;> simp [readField, h]

/-- A read of a response is the fault `noValue` exactly where the field holds no value. -/
theorem readField_eq_noValue_iff (rsp : Response) (f : RspField) :
    readField (some rsp) f = .error (.noValue f) ↔ ¬ (responseValue rsp f).isSome := by
  cases h : responseValue rsp f <;> simp [readField, h]

theorem responseValue_emptyResponse (c : Status) {f : RspField} (hf : f ≠ .status) :
    responseValue (emptyResponse c) f = none := by
  cases f with
  | status => exact absurd rfl hf
  | _ => rfl

/-! ### Which result fields an instruction writes -/

/-- R23: of the result fields of `rsp`, exactly those listed for `i` hold a value. -/
def HoldsResultsOf (i : Instr) (rsp : Response) : Prop :=
  ∀ f, f ≠ .status → ((responseValue rsp f).isSome ↔ f ∈ resultFields i)

theorem holdsResultsOf_iff (i : Instr) (rsp : Response) :
    HoldsResultsOf i rsp ↔
      (rsp.outR.isSome ↔ .outR ∈ resultFields i) ∧ (rsp.outG.isSome ↔ .outG ∈ resultFields i) ∧
      (rsp.outB.isSome ↔ .outB ∈ resultFields i) ∧ (rsp.outP.isSome ↔ .outP ∈ resultFields i) ∧
      (rsp.outImg.isSome ↔ .outImg ∈ resultFields i) ∧ (rsp.outWords.isSome ↔ .outWords ∈ resultFields i) ∧
      (rsp.outBytes.isSome ↔ .outBytes ∈ resultFields i) := by
  constructor
  · intro h
    simpa [responseValue] using And.intro (h .outR) <| And.intro (h .outG) <| And.intro (h .outB) <|
      And.intro (h .outP) <| And.intro (h .outImg) <| And.intro (h .outWords) (h .outBytes)
  · rintro ⟨hr, hg, hb, hp, himg, hwords, hbytes⟩ f hf
    cases f <;> simp_all [responseValue]

/-- `exec_ends`, with the result fields of a success: an instruction raises an error, or it succeeds and writes exactly
its own result fields. -/
theorem exec_raises_or_holdsResults (i : Instr) (s : State) :
    (∃ e, exec i s = raise e s) ∨ (∃ rsp, exec i s = succeed rsp s ∧ HoldsResultsOf i rsp) := by
  cases i with
  | unpack565 => exact .inr ⟨_, rfl, by simp [holdsResultsOf_iff, resultFields]⟩
  | pack888 => exact .inr ⟨_, rfl, by simp [holdsResultsOf_iff, resultFields]⟩
  | decode =>
    obtain ⟨e, -, h⟩ | ⟨-, h⟩ := execDecode_cases s
    · exact .inl ⟨e, h⟩
    · exact .inr ⟨_, h, by simp [holdsResultsOf_iff, resultFields]⟩
  | encode =>
    obtain ⟨e, -, h⟩ | ⟨-, h⟩ := execEncode_cases s
    · exact .inl ⟨e, h⟩
    · exact .inr ⟨_, h, by simp [holdsResultsOf_iff, resultFields]⟩
  | b2w => exact .inr ⟨_, rfl, by simp [holdsResultsOf_iff, resultFields]⟩
  | w2b => exact .inr ⟨_, rfl, by simp [holdsResultsOf_iff, resultFields]⟩
  | illegal cmd => exact .inl ⟨_, rfl⟩

/-- The response an instruction leaves: the bare code of an error (R141), or `OK` with exactly its own result fields. -/
theorem exec_response_cases {i : Instr} {s t : State} {r : Response} (h : exec i s = .next t) (hr : t.rsp = some r) :
    (∃ e, r = emptyResponse (errorStatus e)) ∨ (r.status = statusCode .ok ∧ HoldsResultsOf i r) := by
  obtain ⟨e, he⟩ | ⟨rsp, hs, hold⟩ := exec_raises_or_holdsResults i s
  · rw [he, raise_eq] at h
    cases h
    exact .inl ⟨e, (Option.some.inj hr).symm⟩
  · rw [hs, succeed_eq] at h
    cases h
    cases hr
    exact .inr ⟨rfl, by simpa [holdsResultsOf_iff] using hold⟩

/-- Settles O30: an error leaves the bare response, and a success writes exactly the listed fields. -/
theorem unwrittenFieldsFault : Obligations.UnwrittenFieldsFault := by
  unfold Obligations.UnwrittenFieldsFault
  intro i s t r f h hr hf
  rw [hr, readField_eq_noValue_iff, exists_readField_eq_ok_iff]
  obtain ⟨e, rfl⟩ | ⟨hok, hold⟩ := exec_response_cases h hr
  · have failed : (emptyResponse (errorStatus e)).status ≠ 0 := statusCode_ne_ok (errorStatus_ne_ok e)
    have noValue : ¬ (responseValue (emptyResponse (errorStatus e)) f).isSome := by
      simp [responseValue_emptyResponse _ hf]
    exact ⟨fun _ => noValue, fun _ => noValue, fun ok => absurd ok failed⟩
  · exact ⟨fun failed => absurd hok failed, (hold f hf).not.mpr, fun _ => (hold f hf).mpr⟩

/-! ### Which request fields a response depends on -/

/-- Two meanings end in the same response and the same fault record, each in its own state. -/
def AnsweredAlike (s s' : State) (o o' : Outcome) : Prop :=
  ∃ (r : Response) (e : Option ErrorInfo), o = .next (s.answer r e) ∧ o' = .next (s'.answer r e)

theorem succeed_answeredAlike (rsp : Response) (s s' : State) :
    AnsweredAlike s s' (succeed rsp s) (succeed rsp s') := ⟨_, _, succeed_eq rsp s, succeed_eq rsp s'⟩

theorem raise_answeredAlike (e : ErrorInfo) (s s' : State) :
    AnsweredAlike s s' (raise e s) (raise e s') := ⟨_, _, raise_eq e s, raise_eq e s'⟩

/-- R22: an instruction's answer depends on the parameters and on the fields its operation reads only. -/
theorem exec_answeredAlike (i : Instr) {s s' : State} (hparams : s.params = s'.params)
    (hagree : operandsAgree s.req s'.req i = true) : AnsweredAlike s s' (exec i s) (exec i s') := by
  cases i with
  | unpack565 =>
    have hp : s.req.p = s'.req.p := by simpa [operandsAgree] using hagree
    simpa only [exec, execUnpack565, hp] using succeed_answeredAlike _ s s'
  | pack888 =>
    obtain ⟨⟨hr, hg⟩, hb⟩ : (s.req.r = s'.req.r ∧ s.req.g = s'.req.g) ∧ s.req.b = s'.req.b := by
      simpa [operandsAgree] using hagree
    simpa only [exec, execPack888, hr, hg, hb] using succeed_answeredAlike _ s s'
  | decode =>
    obtain ⟨⟨hw, hh⟩, hin⟩ :
        (s.req.width = s'.req.width ∧ s.req.height = s'.req.height) ∧ s.req.inWords = s'.req.inWords := by
      simpa [operandsAgree] using hagree
    simp only [exec, execDecode, hparams, hw, hh, hin]
    split
    · exact raise_answeredAlike _ s s'
    · exact succeed_answeredAlike _ s s'
  | encode =>
    obtain ⟨⟨hw, hh⟩, hin⟩ :
        (s.req.width = s'.req.width ∧ s.req.height = s'.req.height) ∧ s.req.inBytes = s'.req.inBytes := by
      simpa [operandsAgree] using hagree
    simp only [exec, execEncode, hparams, hw, hh, hin]
    split
    · exact raise_answeredAlike _ s s'
    · exact succeed_answeredAlike _ s s'
  | b2w =>
    have hin : s.req.inBytes = s'.req.inBytes := by simpa [operandsAgree] using hagree
    simpa only [exec, execB2w, hparams, hin] using succeed_answeredAlike _ s s'
  | w2b =>
    have hin : s.req.inWords = s'.req.inWords := by simpa [operandsAgree] using hagree
    simpa only [exec, execW2b, hparams, hin] using succeed_answeredAlike _ s s'
  | illegal cmd => exact raise_answeredAlike (.illegal cmd) s s'

/-- Settles O31: equal command bytes decode to one instruction, whose answer depends on the agreeing fields only. -/
theorem unreadFieldsAreIgnored : Obligations.UnreadFieldsAreIgnored := by
  unfold Obligations.UnreadFieldsAreIgnored
  intro s s' hparams hcmd hagree
  rw [← hcmd]
  exact exec_answeredAlike _ hparams hagree

end Sys2Proof.Machine
end

section
/-! The two-byte accesses of a byte buffer (spec/20_memory.md): R42 in both byte orders. -/

namespace Sys2Proof.Machine

/-! ### The byte order as a choice on `ENDIAN` -/

theorem wordOfBytes_eq_ite (e : Endian) (b0 b1 : U8) :
    wordOfBytes e b0 b1 = if e = .little then b1 ++ b0 else b0 ++ b1 := by cases e <;> rfl

theorem firstByte_eq_ite (e : Endian) (w : U16) :
    firstByte e w = if e = .little then w.extractLsb' 0 8 else w.extractLsb' 8 8 := by cases e <;> rfl

theorem secondByte_eq_ite (e : Endian) (w : U16) :
    secondByte e w = if e = .little then w.extractLsb' 8 8 else w.extractLsb' 0 8 := by cases e <;> rfl

/-! ### What an access inside the buffer reads and writes -/

theorem memRead16_of_getElem? (e : Endian) {buf : List U8} {a : Nat} {b0 b1 : U8} (h0 : buf[a]? = some b0)
    (h1 : buf[a + 1]? = some b1) : memRead16 e buf a = some (wordOfBytes e b0 b1) := by
  simp only [memRead16, h0, h1]

theorem memWrite16_getElem?_first (e : Endian) {buf : List U8} {a : Nat} (w : U16) (h : a < buf.length) :
    (memWrite16 e buf a w)[a]? = some (firstByte e w) := by
  simp [memWrite16, h]

theorem memWrite16_getElem?_second (e : Endian) {buf : List U8} {a : Nat} (w : U16) (h : a + 1 < buf.length) :
    (memWrite16 e buf a w)[a + 1]? = some (secondByte e w) := by
  simp [memWrite16, h]

/-- Settles O20: the read, the two written bytes and the frame, each by its rule, in the byte order `ENDIAN` fixes. -/
theorem bytePairAccesses : Obligations.BytePairAccesses := by
  unfold Obligations.BytePairAccesses
  intro e buf i b0 b1 w h0 h1
  obtain ⟨inFirst, -⟩ := List.getElem?_eq_some_iff.mp h0
  obtain ⟨inSecond, -⟩ := List.getElem?_eq_some_iff.mp h1
  rw [← wordOfBytes_eq_ite, ← firstByte_eq_ite, ← secondByte_eq_ite]
  exact ⟨memRead16_of_getElem? e h0 h1, memWrite16_getElem?_first e w inFirst,
    memWrite16_getElem?_second e w inSecond, fun k => memWrite16_frame e buf (2 * i) k w⟩

end Sys2Proof.Machine
end

section
/-! The command byte (spec/30_encoding.md): the decoder and the encoder are inverse on the well-formed instructions, which
gives R61's table in both directions and R62's illegal bytes. -/

namespace Sys2Proof

/-! ### The decoder and the encoder -/

theorem encodeCommand_decodeCommand (c : U8) : encodeCommand (decodeCommand c) = c := by
  obtain ⟨rfl, h⟩ | ⟨rfl, h⟩ | ⟨rfl, h⟩ | ⟨rfl, h⟩ | ⟨rfl, h⟩ | ⟨rfl, h⟩ | ⟨-, h⟩ := decodeCommand_cases c <;>
    rw [h] <;> rfl

theorem decodeCommand_wellFormed (c : U8) : (decodeCommand c).wellFormed = true := by
  obtain ⟨-, h⟩ | ⟨-, h⟩ | ⟨-, h⟩ | ⟨-, h⟩ | ⟨-, h⟩ | ⟨-, h⟩ | ⟨illegal, h⟩ := decodeCommand_cases c <;>
    simp only [h, Instr.wellFormed]
  exact illegal

theorem decodeCommand_encodeCommand {i : Instr} (hi : i.wellFormed = true) : decodeCommand (encodeCommand i) = i := by
  cases i with
  | unpack565 => exact (Laws.RowOfEncoding.unpack565 hi).1
  | pack888 => exact (Laws.RowOfEncoding.pack888 hi).1
  | decode => exact (Laws.RowOfEncoding.decode hi).1
  | encode => exact (Laws.RowOfEncoding.encode hi).1
  | b2w => exact (Laws.RowOfEncoding.b2w hi).1
  | w2b => exact (Laws.RowOfEncoding.w2b hi).1
  | illegal cmd => exact (Laws.RowOfEncoding.illegal cmd hi).1

/-- A well-formed instruction has exactly one command byte. -/
theorem decodeCommand_eq_iff {i : Instr} (hi : i.wellFormed = true) (c : U8) :
    decodeCommand c = i ↔ c = encodeCommand i := by
  constructor
  · rintro rfl
    exact (encodeCommand_decodeCommand c).symm
  · rintro rfl
    exact decodeCommand_encodeCommand hi

/-! ### The illegal bytes (R62) -/

theorem decodeCommand_eq_illegal_iff (c : U8) : decodeCommand c = .illegal c ↔ isIllegalCommand c = true := by
  constructor
  · intro h
    have wf := decodeCommand_wellFormed c
    rwa [h] at wf
  · exact fun h => (decodeCommand_eq_iff (i := .illegal c) h c).mpr rfl

theorem isIllegalCommand_iff (c : U8) :
    isIllegalCommand c = true ↔
      (c.extractLsb' 0 3 = 0b110#3 ∨ c.extractLsb' 0 3 = 0b111#3 ∨ c.extractLsb' 3 5 ≠ 0#5) := by
  simp [isIllegalCommand, opField, rsvField, or_assoc]

/-- Settles O1: each operation is well formed and so has its encoding as its only byte, and `OP` 110 and 111 are
illegal. -/
theorem commandBytesOfTheTable : Obligations.CommandBytesOfTheTable := by
  unfold Obligations.CommandBytesOfTheTable
  refine ⟨fun c => ⟨decodeCommand_eq_iff rfl c, decodeCommand_eq_iff rfl c, decodeCommand_eq_iff rfl c,
    decodeCommand_eq_iff rfl c, decodeCommand_eq_iff rfl c, decodeCommand_eq_iff rfl c⟩, ?_, ?_⟩
  · exact (decodeCommand_eq_illegal_iff 0x06).mpr rfl
  · exact (decodeCommand_eq_illegal_iff 0x07).mpr rfl

/-- Settles O2: the illegal bytes are those of `isIllegalCommand`, the encoder inverts the decoder on every byte, and
ILLEGAL's meaning is `raise`. -/
theorem illegalCommands : Obligations.IllegalCommands := by
  unfold Obligations.IllegalCommands
  refine ⟨fun c => ?_, fun c => ?_, fun c s q => ?_⟩
  · exact (decodeCommand_eq_illegal_iff c).trans (isIllegalCommand_iff c)
  · exact ⟨decodeCommand_wellFormed c, encodeCommand_decodeCommand c⟩
  · exact Machine.raise_eq (.illegal c) { s with req := q }

end Sys2Proof
end

section
/-! The flat layout of RGB888 pixels (R64), and ENCODE on an input in that layout. -/

namespace Sys2Proof.Machine

/-! ### The layout -/

/-- Pixel `k` takes bytes `3k`, `3k+1` and `3k+2`: red, green, blue. -/
theorem flattenPixels_getElem? {ps : List Rgb888} {k : Nat} {px : Rgb888} (h : ps[k]? = some px) :
    (flattenPixels ps)[3 * k]? = some px.r ∧ (flattenPixels ps)[3 * k + 1]? = some px.g ∧
      (flattenPixels ps)[3 * k + 2]? = some px.b := by
  induction ps generalizing k with
  | nil => cases h
  | cons p rest ih =>
    cases k with
    | zero =>
      cases h
      exact ⟨rfl, rfl, rfl⟩
    | succ k => exact ih (k := k) h

/-- Packing the bytes of a layout packs each pixel, in order. -/
theorem packTriples_flattenPixels (ps : List Rgb888) :
    packTriples (flattenPixels ps) = ps.map (fun px => packPixel px.r px.g px.b) := by
  induction ps with
  | nil => rfl
  | cons px rest ih => simp [flattenPixels, packTriples, ih]

/-! ### ENCODE -/

/-- ENCODE answers `OK` with the packed triples of `IN_BYTES` where R145, R146 and R144 raise no error (R106). -/
theorem exec_encode_of_fits {s : State} (hw : 0 < s.req.width) (hh : 0 < s.req.height)
    (hcap : withinCapacity s.params (s.req.width * s.req.height))
    (hlen : s.req.inBytes.length = 3 * (s.req.width * s.req.height)) :
    exec .encode s = .next { s with
      rsp := some { bareResponse 0 with outWords := some (packTriples s.req.inBytes) }, record := none } := by
  have noError := (imageError_eq_none s.params s.req.width s.req.height s.req.inBytes.length
    (3 * (s.req.width * s.req.height))).mpr ⟨hw, hh, (withinCapacity_iff _ _).mp hcap, hlen⟩
  obtain ⟨e, error, -⟩ | ⟨-, ok⟩ := execEncode_cases s
  · rw [noError] at error
    cases error
  · exact ok

/-- Settles O17: the layout by index, and ENCODE's packed triples on a layout of the required length. -/
theorem flatLayoutIsRedGreenBlue : Obligations.FlatLayoutIsRedGreenBlue := by
  unfold Obligations.FlatLayoutIsRedGreenBlue
  refine ⟨fun ps k px h => flattenPixels_getElem? h, fun s ps hin hcount hw hh hcap => ?_⟩
  have hlen : s.req.inBytes.length = 3 * (s.req.width * s.req.height) := by
    rw [hin, flattenPixels_length, hcount]
  rw [exec_encode_of_fits hw hh hcap hlen, hin, packTriples_flattenPixels]

end Sys2Proof.Machine
end

section
/-! UNPACK565 (spec/40_unpack.md): each channel is a field of the pixel in the top of its byte with zeros below (R83), which
gives the zero low bits of R80 and the value sets of R82. -/

namespace Sys2Proof.Machine

/-! ### A field above zero bits -/

theorem append_zero_and_low {w k : Nat} (x : BitVec w) (m : BitVec k) : (x ++ 0#k) &&& (0#w ++ m) = 0#(w + k) := by
  simp only [BitVec.and_append, BitVec.and_zero, BitVec.zero_and, BitVec.zero_append_zero]

theorem append_zero_eq_ofNat {w k : Nat} (x : BitVec w) : x ++ 0#k = BitVec.ofNat (w + k) (2 ^ k * x.toNat) := by
  have append_toNat : (x ++ 0#k).toNat = 2 ^ k * x.toNat := by
    simp [BitVec.toNat_append, Nat.shiftLeft_eq, Nat.mul_comm]
  rw [← append_toNat, BitVec.ofNat_toNat, BitVec.setWidth_eq]

/-! ### The answer of UNPACK565 -/

theorem exec_unpack565 (s : State) :
    exec .unpack565 s = .next { s with
      rsp := some { bareResponse 0 with
        outR := some (unpackR s.req.p), outG := some (unpackG s.req.p), outB := some (unpackB s.req.p) }
      record := none } := succeed_eq _ s

/-- R82: a pixel with fields `r`, `g`, `b` has the channels `8r`, `4g`, `8b`. -/
theorem exec_unpack565_of_fields {s : State} {r : BitVec 5} {g : BitVec 6} {b : BitVec 5}
    (hp : s.req.p = r ++ g ++ b) :
    exec .unpack565 s = .next { s with
      rsp := some { bareResponse 0 with
        outR := some (BitVec.ofNat 8 (8 * r.toNat)), outG := some (BitVec.ofNat 8 (4 * g.toNat)),
        outB := some (BitVec.ofNat 8 (8 * b.toNat)) }
      record := none } := by
  have hr : r ++ 0#3 = BitVec.ofNat 8 (8 * r.toNat) := append_zero_eq_ofNat r
  have hg : g ++ 0#2 = BitVec.ofNat 8 (4 * g.toNat) := append_zero_eq_ofNat g
  have hb : b ++ 0#3 = BitVec.ofNat 8 (8 * b.toNat) := append_zero_eq_ofNat b
  rw [exec_unpack565, hp, unpackR_fields, unpackG_fields, unpackB_fields, hr, hg, hb]

/-- Settles O5: a pixel's own fields are the factors, and the pixel with the given factors as its fields answers them. -/
theorem channelValueSets : Obligations.ChannelValueSets := by
  unfold Obligations.ChannelValueSets
  refine ⟨fun s => ?_, fun s kr kg kb hr hg hb => ?_⟩
  · exact ⟨_, _, _, BitVec.isLt _, BitVec.isLt _, BitVec.isLt _, exec_unpack565_of_fields (pixel_eq_fields s.req.p)⟩
  · refine ⟨BitVec.ofNat 5 kr ++ BitVec.ofNat 6 kg ++ BitVec.ofNat 5 kb, ?_⟩
    rw [exec_unpack565_of_fields rfl, BitVec.toNat_ofNat, BitVec.toNat_ofNat, BitVec.toNat_ofNat,
      Nat.mod_eq_of_lt hr, Nat.mod_eq_of_lt hg, Nat.mod_eq_of_lt hb]

/-! ### The low bits of a channel (R80) -/

theorem unpackR_low_bits (p : U16) : unpackR p &&& 0x07#8 = 0#8 := by
  rw [pixel_eq_fields p, unpackR_fields]
  exact append_zero_and_low _ 0x7#3

theorem unpackG_low_bits (p : U16) : unpackG p &&& 0x03#8 = 0#8 := by
  rw [pixel_eq_fields p, unpackG_fields]
  exact append_zero_and_low _ 0x3#2

theorem unpackB_low_bits (p : U16) : unpackB p &&& 0x07#8 = 0#8 := by
  rw [pixel_eq_fields p, unpackB_fields]
  exact append_zero_and_low _ 0x7#3

/-- Settles O4: the masks and shifts are those of `unpackR`, `unpackG` and `unpackB`, whose low bits are zero. -/
theorem unpackAnswersChannels : Obligations.UnpackAnswersChannels := by
  unfold Obligations.UnpackAnswersChannels
  exact ⟨rfl, fun s =>
    ⟨exec_unpack565 s, unpackR_low_bits s.req.p, unpackG_low_bits s.req.p, unpackB_low_bits s.req.p⟩⟩

end Sys2Proof.Machine
end

section
/-! PACK888 (spec/41_pack.md): its formula is `packPixel`, whose three terms share no bit (R90), and whose fields are the
high bits of the channels, which UNPACK565 gives back masked (R92). -/

namespace Sys2Proof.Machine

/-! ### The answer of PACK888 -/

theorem exec_pack888 (s : State) :
    exec .pack888 s = .next { s with
      rsp := some { bareResponse 0 with outP := some (packPixel s.req.r s.req.g s.req.b) }
      record := none } := succeed_eq _ s

/-! ### The three terms of a packed pixel (R90) -/

/-- Red fills bits 15:11 and green bits 10:5. -/
theorem packed_red_and_green (r g : U8) :
    ((zext16 r &&& 0x00F8#16) <<< 8) &&& ((zext16 g &&& 0x00FC#16) <<< 3) = 0#16 := by
  apply BitVec.eq_of_getLsbD_eq
  intro i hi
  simp only [zext16, BitVec.getLsbD_and, BitVec.getLsbD_shiftLeft, BitVec.getLsbD_setWidth]
  interval_cases i <;> simp

/-- Red and green fill bits 15:5 and blue bits 4:0. -/
theorem packed_red_green_and_blue (r g b : U8) :
    (((zext16 r &&& 0x00F8#16) <<< 8) ||| ((zext16 g &&& 0x00FC#16) <<< 3)) &&& (zext16 b >>> 3) = 0#16 := by
  apply BitVec.eq_of_getLsbD_eq
  intro i hi
  simp only [zext16, BitVec.getLsbD_and, BitVec.getLsbD_or, BitVec.getLsbD_shiftLeft, BitVec.getLsbD_ushiftRight,
    BitVec.getLsbD_setWidth]
  interval_cases i <;> simp

/-- The terms share no bit, so their or is their sum. -/
theorem packPixel_eq_sum (r g b : U8) :
    packPixel r g b = ((zext16 r &&& 0x00F8#16) <<< 8) + ((zext16 g &&& 0x00FC#16) <<< 3) + (zext16 b >>> 3) := by
  rw [BitVec.add_eq_or_of_and_eq_zero _ _ (packed_red_and_green r g),
    BitVec.add_eq_or_of_and_eq_zero _ _ (packed_red_green_and_blue r g b), packPixel]

/-- Settles O7: the formula is that of `packPixel`, whose terms add up because they share no bit. -/
theorem packAnswersPixel : Obligations.PackAnswersPixel := by
  unfold Obligations.PackAnswersPixel
  exact ⟨rfl, fun s => ⟨exec_pack888 s, packPixel_eq_sum s.req.r s.req.g s.req.b⟩⟩

/-! ### The round trip through a pixel (R92) -/

/-- The fields of a packed pixel are the high bits of its channels. -/
theorem packPixel_eq_high_bits (r g b : U8) :
    packPixel r g b = r.extractLsb' 3 5 ++ g.extractLsb' 2 6 ++ b.extractLsb' 3 5 := by
  conv_lhs => rw [channel_eq_5_3 r, channel_eq_6_2 g, channel_eq_5_3 b]
  exact packPixel_fields _ _ _ _ _ _

theorem unpackPixel_packPixel (r g b : U8) :
    unpackPixel (packPixel r g b) = ⟨r &&& 0xF8#8, g &&& 0xFC#8, b &&& 0xF8#8⟩ := by
  rw [packPixel_eq_high_bits, unpackPixel, unpackR_fields, unpackG_fields, unpackB_fields, high5_eq_mask,
    high6_eq_mask, high5_eq_mask]

/-- A mask keeps a value exactly where the bits it discards are zero. -/
theorem and_eq_self_iff_and_not_eq_zero {w : Nat} (x m : BitVec w) : x &&& m = x ↔ x &&& ~~~m = 0#w := by
  have kept_or_discarded : x &&& m ||| x &&& ~~~m = x := by
    rw [← BitVec.and_or_distrib_left, BitVec.or_not_self, BitVec.and_allOnes]
  constructor
  · intro h
    rw [← h, BitVec.and_assoc, BitVec.and_not_self]
    exact BitVec.and_zero
  · intro h
    rwa [h, BitVec.or_zero] at kept_or_discarded

/-- Settles O9: unpacking the packed pixel masks each channel, and each mask discards the bits of its complement. -/
theorem lossyMaskingLaw : Obligations.LossyMaskingLaw := by
  unfold Obligations.LossyMaskingLaw
  intro s
  refine ⟨packPixel s.req.r s.req.g s.req.b, exec_pack888 s, fun s' hp => ?_, ?_⟩
  · obtain ⟨hr, hg, hb⟩ := Rgb888.mk.inj (unpackPixel_packPixel s.req.r s.req.g s.req.b)
    rw [exec_unpack565, hp, hr, hg, hb]
  · exact and_congr (and_eq_self_iff_and_not_eq_zero s.req.r 0xF8#8) <|
      and_congr (and_eq_self_iff_and_not_eq_zero s.req.g 0xFC#8) (and_eq_self_iff_and_not_eq_zero s.req.b 0xF8#8)

end Sys2Proof.Machine
end

section
/-! Whole-image conversion (spec/42_image.md): which error DECODE and ENCODE raise on a request (R148), and what they answer
where none applies. -/

namespace Sys2Proof.Machine

/-! ### The error of a whole-image operation, by its condition (R148) -/

theorem imageError_of_zero_dim {p : Params} {w h len req : Nat} (hdim : w = 0 ∨ h = 0) :
    imageError p w h len req = some (.dim w h) := if_pos hdim

theorem imageError_of_exceedsCapacity {p : Params} {w h len req : Nat} (hw : 0 < w) (hh : 0 < h)
    (hcap : exceedsCapacity p (w * h)) : imageError p w h len req = some (.capacity (w * h)) := by
  have hover := (exceedsCapacity_iff p (w * h)).mp hcap
  simp [imageError, hw.ne', hh.ne', hover]

theorem imageError_of_length_ne {p : Params} {w h len req : Nat} (hw : 0 < w) (hh : 0 < h)
    (hcap : withinCapacity p (w * h)) (hlen : len ≠ req) : imageError p w h len req = some (.length len req) := by
  have hwithin := (withinCapacity_iff p (w * h)).mp hcap
  simp [imageError, hw.ne', hh.ne', hwithin, hlen]

/-- A wrong length is an error even where the dimensions are wrong too. -/
theorem exists_imageError_of_length_ne (p : Params) (w h : Nat) {len req : Nat} (hlen : len ≠ req) :
    ∃ e, imageError p w h len req = some e := by
  rw [← Option.ne_none_iff_exists']
  intro noError
  obtain ⟨-, -, -, heq⟩ := (imageError_eq_none p w h len req).mp noError
  exact hlen heq

/-! ### The answer of DECODE -/

theorem exec_decode_of_error {s : State} {e : ErrorInfo}
    (he : imageError s.params s.req.width s.req.height s.req.inWords.length (s.req.width * s.req.height) = some e) :
    exec .decode s = .next { s with rsp := some (bareResponse (statusCode (errorStatus e))), record := some e } := by
  obtain ⟨e', error, failed⟩ | ⟨noError, -⟩ := execDecode_cases s
  · cases he.symm.trans error
    exact failed
  · cases he.symm.trans noError

/-- The image that DECODE gives (R100): the request's dimensions, and the expansion of every word in order. -/
def decodedImage (req : Request) : Image :=
  { width := req.width, height := req.height, pixels := req.inWords.map unpackPixel }

@[simp] theorem decodedImage_width (req : Request) : (decodedImage req).width = req.width := rfl
@[simp] theorem decodedImage_height (req : Request) : (decodedImage req).height = req.height := rfl
@[simp] theorem decodedImage_pixels_length (req : Request) : (decodedImage req).pixels.length = req.inWords.length :=
  List.length_map _

theorem decodedImage_pixels_getElem? {req : Request} {i : Nat} {p : U16} (hp : req.inWords[i]? = some p) :
    (decodedImage req).pixels[i]? = some (unpackPixel p) := by
  simp [decodedImage, hp]

theorem decodedImage_pixelAt {req : Request} {x y : Nat} (hx : x < req.width) (hy : y < req.height) :
    (decodedImage req).pixelAt x y = (decodedImage req).pixels[y * req.width + x]? := if_pos ⟨hx, hy⟩

/-- DECODE answers `OK` with the decoded image where R145, R146 and R144 raise no error (R100). -/
theorem exec_decode_of_fits {s : State} (hw : 0 < s.req.width) (hh : 0 < s.req.height)
    (hcap : withinCapacity s.params (s.req.width * s.req.height))
    (hlen : s.req.inWords.length = s.req.width * s.req.height) :
    exec .decode s = .next { s with
      rsp := some { bareResponse 0 with outImg := some (decodedImage s.req) }, record := none } := by
  have noError := (imageError_eq_none s.params s.req.width s.req.height s.req.inWords.length
    (s.req.width * s.req.height)).mpr ⟨hw, hh, (withinCapacity_iff _ _).mp hcap, hlen⟩
  obtain ⟨e, error, -⟩ | ⟨-, ok⟩ := execDecode_cases s
  · cases noError.symm.trans error
  · exact ok

/-- An image in DECODE's response is the decoded image, and there was one word for each pixel. -/
theorem exec_decode_outImg {s t : State} {r : Response} {img : Image} (h : exec .decode s = .next t)
    (hr : t.rsp = some r) (himg : r.outImg = some img) :
    img = decodedImage s.req ∧ s.req.inWords.length = s.req.width * s.req.height := by
  obtain ⟨e, -, failed⟩ | ⟨noError, ok⟩ := execDecode_cases s
  · cases h.symm.trans failed
    cases hr
    cases himg
  · obtain ⟨-, -, -, hlen⟩ := (imageError_eq_none _ _ _ _ _).mp noError
    cases h.symm.trans ok
    cases hr
    cases himg
    exact ⟨rfl, hlen⟩

/-- Settles O11: each clause is the condition of one error, or of none; the masks and shifts are `unpackPixel`'s. -/
theorem decodeFollowsPseudocode : Obligations.DecodeFollowsPseudocode := by
  unfold Obligations.DecodeFollowsPseudocode
  refine ⟨rfl, fun s => ⟨fun hdim => ?_, fun hw hh hcap => ?_, fun hw hh hcap hlen => ?_, fun hw hh hcap hlen => ?_⟩⟩
  · exact exec_decode_of_error (imageError_of_zero_dim hdim)
  · exact exec_decode_of_error (imageError_of_exceedsCapacity hw hh hcap)
  · exact exec_decode_of_error (imageError_of_length_ne hw hh hcap hlen)
  · exact ⟨decodedImage s.req, exec_decode_of_fits hw hh hcap hlen, rfl, rfl,
      (decodedImage_pixels_length s.req).trans hlen, fun i p hp => decodedImage_pixels_getElem? hp⟩

/-- Column `x` of row `y` is one of the `W*H` elements in row-major order (R33). -/
theorem rowMajor_lt {w h x y : Nat} (hx : x < w) (hy : y < h) : y * w + x < w * h := by
  calc y * w + x < y * w + w := Nat.add_lt_add_left hx _
    _ = (y + 1) * w := (Nat.succ_mul y w).symm
    _ ≤ h * w := Nat.mul_le_mul_right w hy
    _ = w * h := Nat.mul_comm h w

/-- Settles O12: every index below `W*H` holds a word, and the position of column `x`, row `y` is such an index. -/
theorem decodeKeepsRowMajorOrder : Obligations.DecodeKeepsRowMajorOrder := by
  unfold Obligations.DecodeKeepsRowMajorOrder
  intro s t r img h hr himg
  obtain ⟨rfl, hlen⟩ := exec_decode_outImg h hr himg
  have inOrder : ∀ i, i < s.req.width * s.req.height →
      ∃ p, s.req.inWords[i]? = some p ∧ (decodedImage s.req).pixels[i]? = some (unpackPixel p) := by
    intro i hi
    have word := List.getElem?_eq_getElem (hlen ▸ hi : i < s.req.inWords.length)
    exact ⟨_, word, decodedImage_pixels_getElem? word⟩
  refine ⟨inOrder, fun x y hx hy => ?_⟩
  rw [decodedImage_pixelAt hx hy]
  exact inOrder _ (rowMajor_lt hx hy)

/-- Settles O13: the pixels are as many as the words, which R144's check held to `W*H`. -/
theorem decodeMeetsImageInvariant : Obligations.DecodeMeetsImageInvariant := by
  unfold Obligations.DecodeMeetsImageInvariant
  refine ⟨fun s t r img h hr himg => ?_, fun s hw hh hcap hlen => ?_⟩
  · obtain ⟨rfl, hlen⟩ := exec_decode_outImg h hr himg
    exact ⟨(decodedImage_pixels_length s.req).trans hlen, hlen.symm⟩
  · exact ⟨_, exec_decode_of_fits hw hh hcap hlen, (decodedImage_pixels_length s.req).trans hlen⟩

/-- Settles O14: a response that is not `OK` is the bare code of an error, and a wrong word count raises one. -/
theorem decodeFailsWhole : Obligations.DecodeFailsWhole := by
  unfold Obligations.DecodeFailsWhole
  refine fun s => ⟨fun t r h hr failed => ?_, fun hlen => ?_⟩
  · obtain ⟨e, rfl⟩ | ⟨ok, -⟩ := exec_response_cases h hr
    · rfl
    · exact absurd ok failed
  · obtain ⟨e, he⟩ := exists_imageError_of_length_ne s.params s.req.width s.req.height hlen
    exact ⟨_, e, statusCode_ne_ok (errorStatus_ne_ok e), exec_decode_of_error he⟩

/-! ### The answer of ENCODE -/

theorem exec_encode_of_error {s : State} {e : ErrorInfo}
    (he : imageError s.params s.req.width s.req.height s.req.inBytes.length (3 * (s.req.width * s.req.height)) =
      some e) :
    exec .encode s = .next { s with rsp := some (bareResponse (statusCode (errorStatus e))), record := some e } := by
  obtain ⟨e', error, failed⟩ | ⟨noError, -⟩ := execEncode_cases s
  · cases he.symm.trans error
    exact failed
  · cases he.symm.trans noError

/-- Settles O15: each clause is the condition of one error, or of none; the formula is `packPixel`'s. -/
theorem encodeFollowsPseudocode : Obligations.EncodeFollowsPseudocode := by
  unfold Obligations.EncodeFollowsPseudocode
  refine ⟨rfl, fun s => ⟨fun hdim => ?_, fun hw hh hcap => ?_, fun hw hh hcap hlen => ?_, fun hw hh hcap hlen => ?_⟩⟩
  · exact exec_encode_of_error (imageError_of_zero_dim hdim)
  · exact exec_encode_of_error (imageError_of_exceedsCapacity hw hh hcap)
  · exact exec_encode_of_error (imageError_of_length_ne hw hh hcap hlen)
  · have count : (packTriples s.req.inBytes).length = s.req.width * s.req.height := by
      rw [packTriples_length, hlen, Nat.mul_div_cancel_left _ (by decide)]
    exact ⟨_, exec_encode_of_fits hw hh hcap hlen, count, packTriples_getElem? s.req.inBytes⟩

/-- Settles O16: a wrong byte count is `Length` where R145 and R146 do not apply, and some error in every case. -/
theorem encodeRejectsWrongLength : Obligations.EncodeRejectsWrongLength := by
  unfold Obligations.EncodeRejectsWrongLength
  refine fun s hlen => ⟨fun hw hh hcap => ?_, ?_⟩
  · exact exec_encode_of_error (imageError_of_length_ne hw hh hcap hlen)
  · obtain ⟨e, he⟩ := exists_imageError_of_length_ne s.params s.req.width s.req.height hlen
    exact ⟨_, e, statusCode_ne_ok (errorStatus_ne_ok e), exec_encode_of_error he⟩

end Sys2Proof.Machine
end

section
/-! B2W and W2B (spec/43_reinterpret.md): B2W's words are the two-byte reads of its buffer, whose odd trailing byte is in
none of them (R120, R121), and W2B's bytes are what its loop of two-byte writes leaves (R124). -/

namespace Sys2Proof.Machine

/-! ### The answers of B2W and W2B -/

theorem exec_b2w (s : State) :
    exec .b2w s = .next { s with
      rsp := some { bareResponse 0 with outWords := some (wordsOfBytes s.params.endian s.req.inBytes) }
      record := none } := succeed_eq _ s

theorem exec_w2b (s : State) :
    exec .w2b s = .next { s with
      rsp := some { bareResponse 0 with outBytes := some (bytesOfWords s.params.endian s.req.inWords) }
      record := none } := succeed_eq _ s

/-! ### The words of a byte buffer -/

/-- Settles O21: the words are those of `wordsOfBytes`, each of them the two-byte read at its place. -/
theorem b2wAnswersWords : Obligations.B2wAnswersWords := by
  unfold Obligations.B2wAnswersWords
  refine ⟨rfl, fun s => ⟨_, exec_b2w s, wordsOfBytes_length _ _, fun i hi => ⟨?_, fun b0 b1 h0 h1 => ?_⟩⟩⟩
  · have word := List.getElem?_eq_getElem (hi.trans_eq (wordsOfBytes_length s.params.endian s.req.inBytes).symm)
    exact ⟨_, (wordsOfBytes_getElem? _ _ i).symm.trans word, word⟩
  · rw [wordsOfBytes_getElem?, memRead16_of_getElem? _ h0 h1, wordOfBytes_eq_ite]

/-- A byte behind a whole number of pairs is in no word. -/
theorem wordsOfBytes_append_odd (e : Endian) {bs : List U8} {n : Nat} (b : U8) (heven : bs.length = 2 * n) :
    wordsOfBytes e (bs ++ [b]) = wordsOfBytes e bs := by
  induction bs using wordsOfBytes.induct generalizing n with
  | case1 b0 b1 rest ih =>
    have restEven : rest.length = 2 * (n - 1) := by
      rw [List.length_cons, List.length_cons] at heven
      omega
    exact congrArg (wordOfBytes e b0 b1 :: ·) (ih restEven)
  | case2 b' =>
    rw [List.length_singleton] at heven
    omega
  | case3 => rfl

/-- Settles O22: the trailing byte adds no word to those of the pairs before it. -/
theorem b2wDropsOddByte : Obligations.B2wDropsOddByte := by
  unfold Obligations.B2wDropsOddByte
  intro s pre b n hin heven
  refine ⟨wordsOfBytes s.params.endian pre, ?_, ?_, exec_b2w _⟩
  · rw [wordsOfBytes_length, heven, Nat.mul_div_cancel_left n (by decide)]
  · rw [exec_b2w, hin, wordsOfBytes_append_odd _ b heven]

/-! ### The loop of writes -/

/-- A write behind `pre` replaces the two bytes that stand there. -/
theorem memWrite16_append (e : Endian) (pre rest : List U8) (b0 b1 : U8) (w : U16) :
    memWrite16 e (pre ++ b0 :: b1 :: rest) pre.length w = pre ++ firstByte e w :: secondByte e w :: rest := by
  simp [memWrite16]

/-- R124's loop from word `k` on: behind the `2k` bytes already written, it replaces the bytes left by those of the
words. -/
theorem foldl_memWrite16_append (e : Endian) (ws : List U16) {k : Nat} {written start : List U8}
    (hwritten : written.length = 2 * k) (hstart : start.length = 2 * ws.length) :
    (ws.zipIdx k).foldl (fun buf wi => memWrite16 e buf (2 * wi.2) wi.1) (written ++ start) =
      written ++ bytesOfWords e ws := by
  induction ws generalizing k written start with
  | nil =>
    rw [List.eq_nil_of_length_eq_zero hstart]
    rfl
  | cons w rest ih =>
    -- A word is left to write, so two bytes are.
    match start, hstart with
    | b0 :: b1 :: left, hstart =>
      have hnext : (written ++ [firstByte e w, secondByte e w]).length = 2 * (k + 1) := by
        rw [List.length_append, hwritten]
        rfl
      have hleft : left.length = 2 * rest.length := by
        simp only [List.length_cons] at hstart
        omega
      simpa [← hwritten, memWrite16_append, bytesOfWords] using ih hnext hleft

/-- Settles O23: the loop that starts at word 0 has no bytes before it, and replaces all of `start`. -/
theorem w2bIsItsLoopOfWrites : Obligations.W2bIsItsLoopOfWrites := by
  unfold Obligations.W2bIsItsLoopOfWrites
  refine ⟨rfl, fun s start hstart => ?_⟩
  have loop := foldl_memWrite16_append s.params.endian s.req.inWords (k := 0) (written := []) rfl hstart
  simp only [List.nil_append] at loop
  rw [exec_w2b, loop]

end Sys2Proof.Machine
end

section
/-! Errors (spec/60_exceptions.md): the cause of each error (R142), and the order in which causes are reported (R148). -/

namespace Sys2Proof.Machine

/-! ### The command bytes of DECODE and ENCODE -/

theorem decodeCommand_of_decode {c : U8} (h : c = 0x02) : decodeCommand c = .decode :=
  (decodeCommand_eq_iff rfl c).mpr h

theorem decodeCommand_of_encode {c : U8} (h : c = 0x03) : decodeCommand c = .encode :=
  (decodeCommand_eq_iff rfl c).mpr h

/-! ### Which error is reported (R148) -/

theorem exec_of_illegal {s : State} (illegal : isIllegalCommand s.req.cmd = true) :
    exec (decodeCommand s.req.cmd) s =
      .next { s with rsp := some (bareResponse 3), record := some (.illegal s.req.cmd) } := by
  rw [(decodeCommand_eq_illegal_iff _).mpr illegal]
  exact raise_eq (.illegal s.req.cmd) s

/-- An error of the dimensions alone, whatever the input's length, is the answer of DECODE and of ENCODE. -/
theorem exec_of_dimensions_error {s : State} {e : ErrorInfo} (himage : s.req.cmd = 0x02 ∨ s.req.cmd = 0x03)
    (he : ∀ len required, imageError s.params s.req.width s.req.height len required = some e) :
    exec (decodeCommand s.req.cmd) s =
      .next { s with rsp := some (bareResponse (statusCode (errorStatus e))), record := some e } := by
  obtain hcmd | hcmd := himage
  · rw [decodeCommand_of_decode hcmd]
    exact exec_decode_of_error (he _ _)
  · rw [decodeCommand_of_encode hcmd]
    exact exec_encode_of_error (he _ _)

/-- Settles O33: each clause is the condition under which R148's order comes to that error. -/
theorem firstErrorWins : Obligations.FirstErrorWins := by
  unfold Obligations.FirstErrorWins
  refine fun s => ⟨exec_of_illegal, fun himage => ⟨fun hdim => ?_, fun hw hh hcap => ?_, ?_⟩⟩
  · exact exec_of_dimensions_error himage fun _ _ => imageError_of_zero_dim hdim
  · exact exec_of_dimensions_error himage fun _ _ => imageError_of_exceedsCapacity hw hh hcap
  · rintro actual required hw hh hcap hlen (⟨hcmd, rfl, rfl⟩ | ⟨hcmd, rfl, rfl⟩)
    · rw [decodeCommand_of_decode hcmd]
      exact exec_decode_of_error (imageError_of_length_ne hw hh hcap hlen)
    · rw [decodeCommand_of_encode hcmd]
      exact exec_encode_of_error (imageError_of_length_ne hw hh hcap hlen)

/-! ### The cause of an error (R142) -/

/-- R142 to R146: the condition of an error applies to the request of `s`, and its `info` tells the request's values. -/
def HasCause (s : State) : ErrorInfo → Prop
  | .length actual required =>
    (s.req.cmd = 0x02 ∧ actual = s.req.inWords.length ∧ required = s.req.width * s.req.height ∧ actual ≠ required) ∨
    (s.req.cmd = 0x03 ∧ actual = s.req.inBytes.length ∧ required = 3 * (s.req.width * s.req.height) ∧
      actual ≠ required)
  | .dim w h => (s.req.cmd = 0x02 ∨ s.req.cmd = 0x03) ∧ w = s.req.width ∧ h = s.req.height ∧ (w = 0 ∨ h = 0)
  | .illegal cmd => cmd = s.req.cmd ∧ isIllegalCommand cmd = true
  | .capacity n =>
    (s.req.cmd = 0x02 ∨ s.req.cmd = 0x03) ∧ n = s.req.width * s.req.height ∧ exceedsCapacity s.params n

/-- The error of DECODE and of ENCODE has its cause; what a wrong length is, is the operation's own. -/
theorem hasCause_of_imageError {s : State} {len required : Nat} {e : ErrorInfo}
    (himage : s.req.cmd = 0x02 ∨ s.req.cmd = 0x03)
    (hlength : len ≠ required → HasCause s (.length len required))
    (he : imageError s.params s.req.width s.req.height len required = some e) : HasCause s e := by
  obtain ⟨h, hdim⟩ | ⟨h, -, -, hover⟩ | ⟨h, -, -, -, hlen⟩ | ⟨h, -⟩ :=
    imageError_cases s.params s.req.width s.req.height len required <;> cases h.symm.trans he
  · exact ⟨himage, rfl, rfl, hdim⟩
  · exact ⟨himage, rfl, (exceedsCapacity_iff _ _).mpr hover⟩
  · exact hlength hlen

/-- A request succeeds, or it raises an error that has its cause. -/
theorem exec_succeeds_or_hasCause (s : State) :
    (∃ rsp, exec (decodeCommand s.req.cmd) s = succeed rsp s) ∨
    (∃ e, exec (decodeCommand s.req.cmd) s = raise e s ∧ HasCause s e) := by
  obtain ⟨-, h⟩ | ⟨-, h⟩ | ⟨hcmd, h⟩ | ⟨hcmd, h⟩ | ⟨-, h⟩ | ⟨-, h⟩ | ⟨illegal, h⟩ :=
    decodeCommand_cases s.req.cmd <;> rw [h]
  · exact .inl ⟨_, rfl⟩
  · exact .inl ⟨_, rfl⟩
  · obtain ⟨e, he, failed⟩ | ⟨-, ok⟩ := execDecode_cases s
    · exact .inr ⟨e, failed, hasCause_of_imageError (.inl hcmd) (fun hlen => .inl ⟨hcmd, rfl, rfl, hlen⟩) he⟩
    · exact .inl ⟨_, ok⟩
  · obtain ⟨e, he, failed⟩ | ⟨-, ok⟩ := execEncode_cases s
    · exact .inr ⟨e, failed, hasCause_of_imageError (.inr hcmd) (fun hlen => .inr ⟨hcmd, rfl, rfl, hlen⟩) he⟩
    · exact .inl ⟨_, ok⟩
  · exact .inl ⟨_, rfl⟩
  · exact .inl ⟨_, rfl⟩
  · exact .inr ⟨_, rfl, rfl, illegal⟩

/-- Settles O32: a success has code 0 and no record, and each error has its own code, its record and its cause. -/
theorem statusTellsTheCause : Obligations.StatusTellsTheCause := by
  unfold Obligations.StatusTellsTheCause
  intro s t r h hr
  obtain ⟨rsp, ok⟩ | ⟨e, failed, cause⟩ := exec_succeeds_or_hasCause s
  · cases h.symm.trans ok
    cases hr
    exact .inl ⟨rfl, rfl⟩
  · cases h.symm.trans failed
    cases hr
    cases e with
    | length actual required =>
      obtain ⟨hcmd, rfl, rfl, hlen⟩ | ⟨hcmd, rfl, rfl, hlen⟩ := cause
      · exact .inr (.inl ⟨rfl, .inl ⟨hcmd, hlen, rfl⟩⟩)
      · exact .inr (.inl ⟨rfl, .inr ⟨hcmd, hlen, rfl⟩⟩)
    | dim w h =>
      obtain ⟨himage, rfl, rfl, hdim⟩ := cause
      exact .inr (.inr (.inl ⟨rfl, himage, hdim, rfl⟩))
    | illegal cmd =>
      obtain ⟨rfl, illegal⟩ := cause
      exact .inr (.inr (.inr (.inl ⟨rfl, illegal, rfl⟩)))
    | capacity n =>
      obtain ⟨himage, rfl, hcap⟩ := cause
      exact .inr (.inr (.inr (.inr ⟨rfl, himage, hcap, rfl⟩)))

end Sys2Proof.Machine
end

section
/-! The answer to a request (spec/10_state.md sections 1 and 3): every instruction answers with a response of the
allowed form (R23, R25, R142), and the answer depends on the request and the parameters alone (R28). -/

namespace Sys2Proof.Machine

/-! ### Responses of the allowed form -/

theorem goodResponse_iff (r : Response) :
    goodResponse r = true ↔
      ∃ c, statusOfCode r.status = some c ∧ (if c = .ok then resultsOfOneOperation r else noResults r) = true := by
  rw [goodResponse]
  cases statusOfCode r.status with
  | none => simp
  | some c => cases c <;> simp

theorem goodResponse_of_ok {r : Response} (hok : r.status = statusCode .ok) (hres : resultsOfOneOperation r = true) :
    goodResponse r = true :=
  (goodResponse_iff r).mpr ⟨.ok, by rw [hok, statusOfCode_statusCode], hres⟩

theorem goodResponse_emptyResponse (e : ErrorInfo) : goodResponse (emptyResponse (errorStatus e)) = true :=
  (goodResponse_iff _).mpr ⟨errorStatus e, statusOfCode_statusCode _, by rw [if_neg (errorStatus_ne_ok e)]; rfl⟩

/-- A response of the allowed form has a code that R142 names. -/
theorem statusOfCode_isSome_of_goodResponse {r : Response} (h : goodResponse r = true) :
    (statusOfCode r.status).isSome = true := by
  obtain ⟨c, hc, -⟩ := (goodResponse_iff r).mp h
  exact Option.isSome_iff_exists.mpr ⟨c, hc⟩

theorem goodImage_of_resultsOfOneOperation {r : Response} {im : Image} (h : resultsOfOneOperation r = true)
    (him : r.outImg = some im) : goodImage im = true := by
  rw [resultsOfOneOperation] at h
  split at h <;> simp_all

/-- An image in a response of the allowed form meets R30's invariant. -/
theorem image_wf_of_goodResponse {r : Response} {im : Image} (h : goodResponse r = true) (him : r.outImg = some im) :
    im.wf = true := by
  obtain ⟨c, -, hform⟩ := (goodResponse_iff r).mp h
  split at hform
  · have good := goodImage_of_resultsOfOneOperation hform him
    simp only [goodImage, Bool.and_eq_true] at good
    obtain ⟨⟨wf, -⟩, -⟩ := good
    exact wf
  · simp [noResults, him] at hform

/-! ### The answer of an instruction -/

theorem recordAgrees_error (e : ErrorInfo) :
    recordAgrees (some (emptyResponse (errorStatus e))) (some e) = true := by
  simp [recordAgrees]

/-- An instruction raises an error, or it succeeds with the results of one operation. -/
theorem exec_raises_or_goodResults (i : Instr) (s : State) :
    (∃ e, exec i s = raise e s) ∨ (∃ rsp, exec i s = succeed rsp s ∧ resultsOfOneOperation rsp = true) := by
  cases i with
  | unpack565 => exact .inr ⟨_, rfl, rfl⟩
  | pack888 => exact .inr ⟨_, rfl, rfl⟩
  | decode =>
    obtain ⟨e, -, h⟩ | ⟨noError, h⟩ := execDecode_cases s
    · exact .inl ⟨e, h⟩
    · obtain ⟨hw, hh, -, hlen⟩ := (imageError_eq_none _ _ _ _ _).mp noError
      exact .inr ⟨_, h, by simp [resultsOfOneOperation, goodImage, Image.wf, hw, hh, hlen]⟩
  | encode =>
    obtain ⟨e, -, h⟩ | ⟨-, h⟩ := execEncode_cases s
    · exact .inl ⟨e, h⟩
    · exact .inr ⟨_, h, rfl⟩
  | b2w => exact .inr ⟨_, rfl, rfl⟩
  | w2b => exact .inr ⟨_, rfl, rfl⟩
  | illegal cmd => exact .inl ⟨_, rfl⟩

/-- Settles O29: an error leaves its bare code, and a success the results of one operation. -/
theorem everyRequestIsAnswered : Obligations.EveryRequestIsAnswered := by
  unfold Obligations.EveryRequestIsAnswered
  intro i s
  obtain ⟨e, failed⟩ | ⟨rsp, ok, hres⟩ := exec_raises_or_goodResults i s
  · exact ⟨_, _, failed, goodResponse_emptyResponse e, recordAgrees_error e⟩
  · exact ⟨_, _, ok, goodResponse_of_ok rfl hres, rfl⟩

/-! ### The answer to a request -/

theorem operandsAgree_self (q : Request) (i : Instr) : operandsAgree q q i = true := by
  cases i <;> simp [operandsAgree]

/-- `r` and `c` are the response and the fault record that answer the request `q`, whatever else the state holds
(R28). -/
def IsAnswer (p : Params) (q : Request) (r : Response) (c : Option ErrorInfo) : Prop :=
  ∀ s : State, s.params = p → s.req = q → exec (decodeCommand q.cmd) s = .next (s.answer r c)

theorem answer_inj {s : State} {r r' : Response} {c c' : Option ErrorInfo}
    (h : (.next (s.answer r c) : Outcome) = .next (s.answer r' c')) : r = r' ∧ c = c' := by
  simpa [State.answer] using h

theorem exists_isAnswer (p : Params) (q : Request) : ∃ r c, IsAnswer p q r c := by
  obtain ⟨r, c, h⟩ := exec_answers (decodeCommand q.cmd) { State.reset with params := p, req := q }
  refine ⟨r, c, ?_⟩
  rintro s rfl rfl
  obtain ⟨r', c', h', hs⟩ := exec_answeredAlike (decodeCommand s.req.cmd)
    (s := { State.reset with params := s.params, req := s.req }) (s' := s) rfl (operandsAgree_self s.req _)
  obtain ⟨rfl, rfl⟩ := answer_inj (h.symm.trans h')
  exact hs

section
variable {p : Params} {q : Request} {r : Response} {c : Option ErrorInfo}

/-- The answer is what the instruction leaves in any state that holds the request. -/
theorem IsAnswer.exec_eq (h : IsAnswer p q r c) :
    exec (decodeCommand q.cmd) { State.reset with params := p, req := q } =
      .next ({ State.reset with params := p, req := q }.answer r c) := h _ rfl rfl

theorem IsAnswer.good (h : IsAnswer p q r c) : goodResponse r = true ∧ recordAgrees (some r) c = true := by
  obtain ⟨r', c', hexec, hgood⟩ :=
    everyRequestIsAnswered (decodeCommand q.cmd) { State.reset with params := p, req := q }
  obtain ⟨rfl, rfl⟩ := answer_inj (h.exec_eq.symm.trans hexec)
  exact hgood

theorem IsAnswer.cases (h : IsAnswer p q r c) :
    (∃ e, r = emptyResponse (errorStatus e)) ∨ (r.status = statusCode .ok ∧ HoldsResultsOf (decodeCommand q.cmd) r) :=
  exec_response_cases h.exec_eq rfl

end

end Sys2Proof.Machine
end

section
/-! What one step does (spec/70_reset_and_hazards.md section 3): the block's step answers the oldest request and
delivers the response, and a host's step reads a field or sends a request. -/

namespace Sys2Proof.Machine

/-! ### Delivering a response -/

/-- A delivery changes the sender alone: every other part of the state, and every other host, stays as it was. -/
theorem deliver_frame {n : Nat} {s t : State} (h : deliver n s = .next t) :
    ∃ hosts, t = { s with hosts := hosts } ∧ ∀ m, m ≠ n → hosts[m]? = s.hosts[m]? := by
  obtain ⟨rfl, -⟩ | ⟨a, a', r, -, -, -, rfl⟩ := deliver_cases h
  · exact ⟨t.hosts, rfl, fun _ _ => rfl⟩
  · exact ⟨s.hosts.set n a', rfl, fun m hm => List.getElem?_set_ne hm.symm⟩

/-- What becomes of a host, where the state holds it, that receives the response `r`. -/
def ReceivedBy (r : Response) : Option HostAgent → Option HostAgent → Prop
  | none, after => after = none
  | some a, after => ∃ a', receive r a = .next a' ∧ after = some a'

theorem ReceivedBy.unique {r : Response} {before x y : Option HostAgent} (hx : ReceivedBy r before x)
    (hy : ReceivedBy r before y) : x = y := by
  cases before with
  | none => exact hx.trans hy.symm
  | some a =>
    obtain ⟨a', hrec, rfl⟩ := hx
    obtain ⟨b', hrec', rfl⟩ := hy
    cases hrec.symm.trans hrec'
    rfl

theorem deliver_receivedBy {n : Nat} {s t : State} {r : Response} (h : deliver n s = .next t) (hr : s.rsp = some r) :
    ReceivedBy r s.hosts[n]? t.hosts[n]? := by
  obtain ⟨rfl, hnone | hnone⟩ | ⟨a, a', r', ha, hr', hrec, rfl⟩ := deliver_cases h
  · rw [hnone]
    rfl
  · cases hr.symm.trans hnone
  · cases hr.symm.trans hr'
    rw [ha]
    exact ⟨a', hrec, List.getElem?_set_self (List.getElem?_eq_some_iff.mp ha).1⟩

/-! ### The block's step -/

/-- The state in which the request of `e` is answered, before the response is delivered. -/
def State.answered (s : State) (e : Pending) (rest : List Pending) (r : Response) (c : Option ErrorInfo) : State :=
  { s with moves := s.moves.tail, pending := rest, req := e.req }.answer r c

section
variable (s : State) (e : Pending) (rest : List Pending) (r : Response) (c : Option ErrorInfo)

@[simp] theorem answered_params : (s.answered e rest r c).params = s.params := rfl
@[simp] theorem answered_pending : (s.answered e rest r c).pending = rest := rfl
@[simp] theorem answered_req : (s.answered e rest r c).req = e.req := rfl
@[simp] theorem answered_rsp : (s.answered e rest r c).rsp = some r := rfl
@[simp] theorem answered_record : (s.answered e rest r c).record = c := rfl
@[simp] theorem answered_hosts : (s.answered e rest r c).hosts = s.hosts := rfl
@[simp] theorem answered_moves : (s.answered e rest r c).moves = s.moves.tail := rfl

end

theorem step_of_blockNext {s : State} (hb : s.blockNext = true) :
    step s = blockMove { s with moves := s.moves.tail } := by
  rcases hm : s.moves with _ | ⟨_ | n | _, ms⟩
  · rw [step, hm]
    exact congrArg blockMove (by rw [List.tail_nil, ← hm])
  · simp [step, hm]
  · simp [State.blockNext, hm] at hb
  · simp [State.blockNext, hm] at hb

/-- The block's step on a pending request: its answer is delivered to its sender. -/
theorem step_answers {s : State} {e : Pending} {rest : List Pending} {r : Response} {c : Option ErrorInfo}
    (hb : s.blockNext = true) (hp : s.pending = e :: rest) (h : IsAnswer s.params e.req r c) :
    step s = deliver e.sender (s.answered e rest r c) := by
  obtain ⟨r', c', hexec, hmove⟩ := blockMove_cons { s with moves := s.moves.tail } e rest hp
  obtain ⟨rfl, rfl⟩ := answer_inj (hexec.symm.trans (h _ rfl rfl))
  rw [step_of_blockNext hb, hmove]
  rfl

theorem step_idle {s : State} (hb : s.blockNext = true) (hp : s.pending = []) :
    step s = .next { s with moves := s.moves.tail } := by
  exact (step_of_blockNext hb).trans (blockMove_idle _ hp)

/-! ### A reset, and a host's step -/

theorem step_reset {s : State} {ms : List Move} (hm : s.moves = .reset :: ms) :
    step s = .next { s with moves := ms }.resetBlock := by
  simp [step, hm]

theorem step_read_fault {s : State} {n : Nat} {ms : List Move} {a : HostAgent} {f : RspField} {dst : Option Nat}
    {prog : List HostStmt} (hm : s.moves = .host n :: ms) (ha : s.hosts[n]? = some a) (hw : a.waiting = none)
    (hp : a.program = .read f dst :: prog) {x : Fault} (hx : readField a.last f = .error x) : step s = .fault x := by
  simp [step_host s n ms hm, hostMove, ha, hw, hp, hx]

theorem step_send {s : State} {n : Nat} {ms : List Move} {a : HostAgent} {cmd : HostCmd} {prog : List HostStmt}
    {q : Request} {w : Waiting} (hm : s.moves = .host n :: ms) (ha : s.hosts[n]? = some a) (hw : a.waiting = none)
    (hp : a.program = .send cmd :: prog) (hq : requestOf s.params a.bindings cmd = .ok (q, w)) :
    step s = .next (({ s with moves := ms }.setHost n { a with program := prog, waiting := some w }).accept n q) := by
  simp [step_host s n ms hm, hostMove, ha, hw, hp, hq]

theorem step_send_fault {s : State} {n : Nat} {ms : List Move} {a : HostAgent} {cmd : HostCmd} {prog : List HostStmt}
    {x : Fault} (hm : s.moves = .host n :: ms) (ha : s.hosts[n]? = some a) (hw : a.waiting = none)
    (hp : a.program = .send cmd :: prog) (hq : requestOf s.params a.bindings cmd = .error x) : step s = .fault x := by
  simp [step_host s n ms hm, hostMove, ha, hw, hp, hq]

/-! ### All that a step can do -/

/-- `step_cases`, with what the move did: the block was idle, or it answered its oldest request and delivered the
response; a host did nothing, read a field or sent a request; or the block was reset. -/
theorem step_next_cases {s t : State} (h : step s = .next t) :
    (∃ ms, t = { s with moves := ms }) ∨
    (∃ e rest r c, s.blockNext = true ∧ s.pending = e :: rest ∧ IsAnswer s.params e.req r c ∧
      deliver e.sender (s.answered e rest r c) = .next t) ∨
    (∃ n ms a f dst prog v, s.moves = .host n :: ms ∧ s.hosts[n]? = some a ∧ a.waiting = none ∧
      readField a.last f = .ok v ∧
      t = { s with moves := ms }.setHost n ({ a with program := prog }.bindTo dst v)) ∨
    (∃ n ms a cmd prog q w, s.moves = .host n :: ms ∧ s.hosts[n]? = some a ∧ a.waiting = none ∧
      requestOf s.params a.bindings cmd = .ok (q, w) ∧
      t = ({ s with moves := ms }.setHost n { a with program := prog, waiting := some w }).accept n q) ∨
    (∃ ms, t = { s with moves := ms }.resetBlock) := by
  obtain ⟨-, hb, -⟩ | ⟨n, ms, hm, hs⟩ | ⟨ms, -, hs⟩ := step_cases s
  · by_cases hp : s.pending = []
    · cases h.symm.trans (step_idle hb hp)
      exact .inl ⟨_, rfl⟩
    · obtain ⟨e, rest, hp⟩ := List.exists_cons_of_ne_nil hp
      obtain ⟨r, c, hans⟩ := exists_isAnswer s.params e.req
      exact .inr (.inl ⟨e, rest, r, c, hb, hp, hans, (step_answers hb hp hans).symm.trans h⟩)
  · obtain rfl | ⟨a, f, dst, prog, v, ha, hw, -, hv, rfl⟩ | ⟨a, cmd, prog, q, w, ha, hw, -, hq, rfl⟩ :=
      hostMove_cases (hs.symm.trans h)
    · exact .inl ⟨ms, rfl⟩
    · exact .inr (.inr (.inl ⟨n, ms, a, f, dst, prog, v, hm, ha, hw, hv, rfl⟩))
    · exact .inr (.inr (.inr (.inl ⟨n, ms, a, cmd, prog, q, w, hm, ha, hw, hq, rfl⟩)))
  · cases hs.symm.trans h
    exact .inr (.inr (.inr (.inr ⟨ms, rfl⟩)))

end Sys2Proof.Machine
end

section
/-! The invariant (spec/70_reset_and_hazards.md section 3): it holds at reset and every step keeps it. -/

namespace Sys2Proof.Machine

/-! ### Good hosts stay good -/

theorem goodValue_of_goodResponse {r : Response} {f : RspField} {v : Value} (h : goodResponse r = true)
    (hv : responseValue r f = some v) : goodValue v = true := by
  cases f with
  | status =>
    cases hv
    exact statusOfCode_isSome_of_goodResponse h
  | outImg =>
    obtain ⟨im, him, rfl⟩ := Option.map_eq_some_iff.mp hv
    exact image_wf_of_goodResponse h him
  | _ =>
    obtain ⟨x, -, rfl⟩ := Option.map_eq_some_iff.mp hv
    rfl

theorem goodValue_of_readField {last : Option Response} {f : RspField} {v : Value}
    (h : ∀ r, last = some r → goodResponse r = true) (hv : readField last f = .ok v) : goodValue v = true := by
  cases last with
  | none => cases hv
  | some r =>
    cases hf : responseValue r f with
    | none => simp [readField, hf] at hv
    | some u =>
      obtain rfl : u = v := by simpa [readField, hf] using hv
      exact goodValue_of_goodResponse (h r rfl) hf

/-- A host's goodness does not depend on its program or on what it waits for. -/
theorem goodHost_with_program_waiting {a : HostAgent} (h : goodHost a = true) (prog : List HostStmt)
    (w : Option Waiting) : goodHost { a with program := prog, waiting := w } = true := h

theorem goodHost_with_last {a : HostAgent} {r : Response} (h : goodHost a = true) (hr : goodResponse r = true) :
    goodHost { a with last := some r, waiting := none } = true := by
  obtain ⟨hwf, hvalues, -, hdisplay⟩ := (goodHost_iff a).mp h
  refine (goodHost_iff _).mpr ⟨hwf, hvalues, ?_, hdisplay⟩
  rintro _ ⟨⟩
  exact hr

theorem goodHost_with_display {a : HostAgent} {im : Image} (h : goodHost a = true) (him : im.wf = true) :
    goodHost { a with display := some im } = true := by
  obtain ⟨hwf, hvalues, hlast, -⟩ := (goodHost_iff a).mp h
  refine (goodHost_iff _).mpr ⟨hwf, hvalues, hlast, ?_⟩
  rintro _ ⟨⟩
  exact him

theorem takeResult_good {r : Response} {a a' : HostAgent} {w : Waiting} (hr : goodResponse r = true)
    (ha : goodHost a = true) (h : takeResult r a w = .next a') : goodHost a' = true := by
  cases w with
  | status =>
    cases h
    exact ha
  | channels dst =>
    obtain ⟨red, -, h⟩ := withResult_next h
    obtain ⟨green, -, h⟩ := withResult_next h
    obtain ⟨blue, -, h⟩ := withResult_next h
    rcases dst with _ | ⟨nr, ng, nb⟩ <;> cases h
    · exact ha
    · exact bindTo_good (bindTo_good (bindTo_good ha _ _ rfl) _ _ rfl) _ _ rfl
  | pixel dst =>
    obtain ⟨p, -, h⟩ := withResult_next h
    cases h
    exact bindTo_good ha dst _ rfl
  | image dst =>
    obtain ⟨im, him, h⟩ := withResult_next h
    cases h
    have wf := image_wf_of_goodResponse hr him
    exact goodHost_with_display (bindTo_good ha dst _ wf) wf
  | words dst =>
    obtain ⟨ws, -, h⟩ := withResult_next h
    cases h
    exact bindTo_good ha dst _ rfl
  | bytes dst =>
    obtain ⟨bs, -, h⟩ := withResult_next h
    cases h
    exact bindTo_good ha dst _ rfl
  | thenDecode w h' dst =>
    obtain ⟨ws, -, h⟩ := withResult_next h
    cases h
    exact ha
  | thenW2b dst =>
    obtain ⟨ws, -, h⟩ := withResult_next h
    cases h
    exact ha

theorem receive_good {r : Response} {a a' : HostAgent} (hr : goodResponse r = true) (ha : goodHost a = true)
    (h : receive r a = .next a') : goodHost a' = true := by
  obtain ⟨c, hc⟩ := Option.isSome_iff_exists.mp (statusOfCode_isSome_of_goodResponse hr)
  by_cases hok : c = .ok
  · rw [receive_ok r a (hok ▸ hc)] at h
    exact takeResult_good hr (goodHost_with_last ha hr) h
  · cases (receive_failed r a c hc hok).symm.trans h
    exact goodHost_with_last ha hr

/-! ### The requests that hosts send -/

theorem bind_eq_ok {α β : Type} {x : Except Fault α} {k : α → Except Fault β} {y : β} (h : x >>= k = .ok y) :
    ∃ v, x = .ok v ∧ k v = .ok y := by
  cases x with
  | error e => cases h
  | ok v => exact ⟨v, rfl, h⟩

theorem dimOperands_of_fits {p : Params} {w h : Nat} (hfit : dimsFit p w h = true) :
    dimOperands p w h = .ok (w, h) := if_pos hfit

theorem dimOperands_eq_ok {p : Params} {w h : Nat} {d : Nat × Nat} (hd : dimOperands p w h = .ok d) :
    d = (w, h) ∧ dimsFit p w h = true := by
  rw [dimOperands] at hd
  split at hd
  · next hfit =>
    cases hd
    exact ⟨rfl, hfit⟩
  · cases hd

theorem dimsFit_zero (p : Params) : dimsFit p 0 0 = true := by
  simp [dimsFit]

theorem waitFits_of_cmd {w : Waiting} {i : Instr} {c : U8} (hi : i.wellFormed = true) (h : waitFits w i = true)
    (hc : c = encodeCommand i) : waitFits w (decodeCommand c) = true := by
  rwa [(decodeCommand_eq_iff hi c).mpr hc]

/-- A statement's request fits `DIM_BITS` (R67), and its host waits for the results of the request's operation. -/
theorem requestOf_fits_and_waitFits {p : Params} {names : List (Nat × Value)} {cmd : HostCmd} {q : Request}
    {w : Waiting} (h : requestOf p names cmd = .ok (q, w)) :
    q.fits p = true ∧ waitFits w (decodeCommand q.cmd) = true := by
  cases cmd with
  | unpack565 x dst =>
    obtain ⟨v, -, h⟩ := bind_eq_ok h
    cases h
    exact ⟨dimsFit_zero p, waitFits_of_cmd (i := .unpack565) rfl rfl rfl⟩
  | pack888 x y z dst =>
    obtain ⟨r, -, h⟩ := bind_eq_ok h
    obtain ⟨g, -, h⟩ := bind_eq_ok h
    obtain ⟨b, -, h⟩ := bind_eq_ok h
    cases h
    exact ⟨dimsFit_zero p, waitFits_of_cmd (i := .pack888) rfl rfl rfl⟩
  | decode w' h' x dst =>
    obtain ⟨d, hd, h⟩ := bind_eq_ok h
    obtain ⟨rfl, hfit⟩ := dimOperands_eq_ok hd
    obtain ⟨ws, -, h⟩ := bind_eq_ok h
    cases h
    exact ⟨hfit, waitFits_of_cmd (i := .decode) rfl rfl rfl⟩
  | encode w' h' x dst =>
    obtain ⟨d, hd, h⟩ := bind_eq_ok h
    obtain ⟨rfl, hfit⟩ := dimOperands_eq_ok hd
    obtain ⟨bs, -, h⟩ := bind_eq_ok h
    cases h
    exact ⟨hfit, waitFits_of_cmd (i := .encode) rfl rfl rfl⟩
  | b2w x dst =>
    obtain ⟨bs, -, h⟩ := bind_eq_ok h
    cases h
    exact ⟨dimsFit_zero p, waitFits_of_cmd (i := .b2w) rfl rfl rfl⟩
  | w2b x dst =>
    obtain ⟨ws, -, h⟩ := bind_eq_ok h
    cases h
    exact ⟨dimsFit_zero p, waitFits_of_cmd (i := .w2b) rfl rfl rfl⟩
  | rawDecode w' h' x dst =>
    obtain ⟨bs, -, h⟩ := bind_eq_ok h
    cases h
    exact ⟨dimsFit_zero p, waitFits_of_cmd (i := .b2w) rfl rfl rfl⟩
  | rawEncode w' h' x dst =>
    obtain ⟨d, hd, h⟩ := bind_eq_ok h
    obtain ⟨rfl, hfit⟩ := dimOperands_eq_ok hd
    obtain ⟨bs, -, h⟩ := bind_eq_ok h
    cases h
    exact ⟨hfit, waitFits_of_cmd (i := .encode) rfl rfl rfl⟩
  | raw req =>
    obtain ⟨d, hd, h⟩ := bind_eq_ok h
    obtain ⟨-, hfit⟩ := dimOperands_eq_ok hd
    cases h
    exact ⟨hfit, rfl⟩

/-! ### The senders of pending requests -/

theorem senderWaits_iff (hosts : List HostAgent) (e : Pending) :
    senderWaits hosts e = true ↔
      ∀ a, hosts[e.sender]? = some a → ∃ w, a.waiting = some w ∧ waitFits w (decodeCommand e.req.cmd) = true := by
  rw [senderWaits]
  cases ha : hosts[e.sender]? with
  | none => simp
  | some a => cases hw : a.waiting <;> simp [hw]

/-- A host that waits for nothing has no request pending. -/
theorem State.Inv.sender_ne_of_not_waiting {s : State} (h : s.Inv) {n : Nat} {a : HostAgent} (ha : s.hosts[n]? = some a)
    (hw : a.waiting = none) : ∀ e ∈ s.pending, e.sender ≠ n := by
  rintro e he rfl
  obtain ⟨w, hwait, -⟩ := (senderWaits_iff _ _).mp (h.senders_wait e he) a ha
  cases hw.symm.trans hwait

/-- The sender of the oldest request, where the state holds it, has no other request pending. -/
theorem State.Inv.sender_ne_of_oldest {s : State} (h : s.Inv) {e : Pending} {rest : List Pending} {a : HostAgent}
    (hp : s.pending = e :: rest) (ha : s.hosts[e.sender]? = some a) : ∀ e' ∈ rest, e'.sender ≠ e.sender := by
  intro e' he' hsame
  obtain ⟨hone, -⟩ := List.pairwise_cons.mp (hp ▸ h.one_at_a_time)
  exact absurd (List.getElem?_eq_some_iff.mp ha).1 (Nat.not_lt.mpr (hone e' he' hsame.symm))

/-! ### The invariant, by the parts of a step -/

theorem State.Inv.with_moves {s : State} (h : s.Inv) (ms : List Move) : State.Inv { s with moves := ms } :=
  ⟨h.requests_fit, h.response_good, h.record_agrees, h.hosts_good, h.senders_wait, h.one_at_a_time⟩

theorem State.Inv.resetBlock {s : State} (h : s.Inv) : s.resetBlock.Inv where
  requests_fit := by simp
  response_good := by simp
  record_agrees := rfl
  hosts_good := h.hosts_good
  senders_wait := by simp
  one_at_a_time := .nil

theorem State.Inv.answered {s : State} (h : s.Inv) {e : Pending} {rest : List Pending} {r : Response}
    {c : Option ErrorInfo} (hp : s.pending = e :: rest) (hans : IsAnswer s.params e.req r c) :
    (s.answered e rest r c).Inv where
  requests_fit e' he' := h.requests_fit e' (hp ▸ List.mem_cons_of_mem e he')
  response_good := by
    rintro _ ⟨⟩
    exact hans.good.1
  record_agrees := hans.good.2
  hosts_good := h.hosts_good
  senders_wait e' he' := h.senders_wait e' (hp ▸ List.mem_cons_of_mem e he')
  one_at_a_time := (List.pairwise_cons.mp (hp ▸ h.one_at_a_time)).2

/-- A host with no request pending may become any good host. -/
theorem State.Inv.setHost {s : State} (h : s.Inv) {n : Nat} {a : HostAgent} (ha : goodHost a = true)
    (hfree : ∀ e ∈ s.pending, e.sender ≠ n) : (s.setHost n a).Inv where
  requests_fit := h.requests_fit
  response_good := h.response_good
  record_agrees := h.record_agrees
  hosts_good b hb := (List.mem_or_eq_of_mem_set hb).elim (h.hosts_good b) (fun hba => hba ▸ ha)
  senders_wait e he := by
    rw [senderWaits_iff, setHost_hosts, List.getElem?_set_ne (hfree e he).symm, ← senderWaits_iff]
    exact h.senders_wait e he
  one_at_a_time := by
    rw [setHost_hosts, List.length_set]
    exact h.one_at_a_time

/-- A request that fits, of a host that waits for it and has no other pending, may be accepted. -/
theorem State.Inv.accept {s : State} (h : s.Inv) {n : Nat} {q : Request} (hfit : q.fits s.params = true)
    (hwait : senderWaits s.hosts { sender := n, req := q } = true) (hfree : ∀ e ∈ s.pending, e.sender ≠ n) :
    (s.accept n q).Inv where
  requests_fit e he := by
    obtain he | rfl := by simpa using he
    · exact h.requests_fit e he
    · exact hfit
  response_good := h.response_good
  record_agrees := h.record_agrees
  hosts_good := h.hosts_good
  senders_wait e he := by
    obtain he | rfl := by simpa using he
    · exact h.senders_wait e he
    · exact hwait
  one_at_a_time := by
    refine List.pairwise_append.mpr ⟨h.one_at_a_time, List.pairwise_singleton _ _, fun e he e' he' hsame => ?_⟩
    cases List.mem_singleton.mp he'
    exact absurd hsame (hfree e he)

/-- Settles O40: nothing is pending, and there is no response and no host. -/
theorem resetMeetsInvariant : Obligations.ResetMeetsInvariant where
  requests_fit := by simp [State.reset]
  response_good := by simp [State.reset]
  record_agrees := rfl
  hosts_good := by simp [State.reset]
  senders_wait := by simp [State.reset]
  one_at_a_time := .nil

/-- Settles O41: by what the step did, each part of it keeping the invariant. -/
theorem stepKeepsInvariant : Obligations.StepKeepsInvariant := by
  unfold Obligations.StepKeepsInvariant
  intro s t h hstep
  obtain ⟨ms, rfl⟩ | ⟨e, rest, r, c, -, hp, hans, hdel⟩ | ⟨n, ms, a, f, dst, prog, v, -, ha, hw, hv, rfl⟩ |
    ⟨n, ms, a, cmd, prog, q, w, -, ha, hw, hq, rfl⟩ | ⟨ms, rfl⟩ := step_next_cases hstep
  · exact h.with_moves ms
  · obtain ⟨rfl, -⟩ | ⟨a, a', r', ha, hr, hrec, rfl⟩ := deliver_cases hdel
    · exact h.answered hp hans
    · cases hr
      have good := receive_good hans.good.1 (h.hosts_good a (List.mem_of_getElem? ha)) hrec
      exact (h.answered hp hans).setHost good (h.sender_ne_of_oldest hp ha)
  · have good := h.hosts_good a (List.mem_of_getElem? ha)
    obtain ⟨-, -, hlast, -⟩ := (goodHost_iff a).mp good
    exact (h.with_moves ms).setHost
      (bindTo_good (goodHost_with_program_waiting good prog _) dst v (goodValue_of_readField hlast hv))
      (h.sender_ne_of_not_waiting ha hw)
  · have hfree := h.sender_ne_of_not_waiting ha hw
    obtain ⟨hfit, hfits⟩ := requestOf_fits_and_waitFits hq
    have good := goodHost_with_program_waiting (h.hosts_good a (List.mem_of_getElem? ha)) prog (some w)
    refine ((h.with_moves ms).setHost good hfree).accept hfit ?_ hfree
    rw [senderWaits_iff, setHost_hosts, List.getElem?_set_self (List.getElem?_eq_some_iff.mp ha).1]
    rintro _ ⟨⟩
    exact ⟨w, rfl, hfits⟩
  · exact (h.with_moves ms).resetBlock

end Sys2Proof.Machine
end

section
/-! The laws between an operation and its inverse: the command byte (spec/30_encoding.md), the fields of a pixel and the
other round trip (spec/40_unpack.md, spec/41_pack.md), and the laws of spec/42_image.md section 3. -/

namespace Sys2Proof.Machine

/-- Settles O3: the command byte of a well-formed instruction decodes to it, and fills all 8 bits of a table word. -/
theorem decodeOfEncode : Obligations.DecodeOfEncode := by
  unfold Obligations.DecodeOfEncode
  intro i rest hi
  have inverse := decodeCommand_encodeCommand hi
  refine ⟨by rw [decodeBytes, inverse], ?_⟩
  rw [decodeTableWord, if_pos rfl, BitVec.ofNat_toNat, BitVec.setWidth_eq, inverse]

/-! ### The fields of a pixel -/

/-- Settles O6: each channel of a pixel in fields is the field with zeros below. -/
theorem channelsAreShiftedFields : Obligations.ChannelsAreShiftedFields := by
  unfold Obligations.ChannelsAreShiftedFields
  intro s r5 g6 b5 hp
  rw [exec_unpack565, hp, unpackR_fields, unpackG_fields, unpackB_fields]

/-- Settles O8: packing channels given as high and low bits is the concatenation of the high bits. -/
theorem packKeepsTopBits : Obligations.PackKeepsTopBits := by
  unfold Obligations.PackKeepsTopBits
  intro s r5 g6 b5 x y z hr hg hb
  rw [exec_pack888, hr, hg, hb, packPixel_fields]

/-- Expansion loses no information (spec/40_unpack.md): the pixel's fields are the high bits of its channels. -/
theorem packPixel_unpack (p : U16) : packPixel (unpackR p) (unpackG p) (unpackB p) = p := by
  rw [pixel_eq_fields p, unpackR_fields, unpackG_fields, unpackB_fields, packPixel_fields]

/-- Settles O10: the channels are those that UNPACK565 answers, and packing them gives the pixel back. -/
theorem repackingIsIdentity : Obligations.RepackingIsIdentity := by
  unfold Obligations.RepackingIsIdentity
  intro s
  refine ⟨_, _, _, exec_unpack565 s, fun s' hr hg hb => ?_⟩
  rw [exec_pack888, hr, hg, hb, packPixel_unpack]

/-! ### The laws between DECODE and ENCODE -/

theorem packTriples_length_of_eq {bs : List U8} {n : Nat} (h : bs.length = 3 * n) : (packTriples bs).length = n := by
  rw [packTriples_length, h, Nat.mul_div_cancel_left n (by decide)]

/-- Settles O18: there are as many words as pixels, and unpacking a packed triple masks its bytes. -/
theorem decodeOfEncodedImage : Obligations.DecodeOfEncodedImage := by
  unfold Obligations.DecodeOfEncodedImage
  intro s hw hh hcap hlen
  refine ⟨_, exec_encode_of_fits hw hh hcap hlen, fun s' hparams hwidth hheight hwords => ?_⟩
  have count : s'.req.inWords.length = s.req.width * s.req.height := by
    rw [hwords, packTriples_length_of_eq hlen]
  refine ⟨decodedImage s'.req, ?_, hwidth, hheight, (decodedImage_pixels_length _).trans count,
    fun i r g b hr hg hb => ?_⟩
  · exact exec_decode_of_fits (hwidth ▸ hw) (hheight ▸ hh) (by rwa [hparams, hwidth, hheight])
      (by rw [count, hwidth, hheight])
  · rw [decodedImage_pixels_getElem? (p := packPixel r g b), unpackPixel_packPixel]
    rw [hwords, packTriples_getElem? _ i r g b hr hg hb]

/-- Packing the pixels that some words expand to gives the words. -/
theorem packTriples_flattenPixels_map_unpackPixel (ws : List U16) :
    packTriples (flattenPixels (ws.map unpackPixel)) = ws := by
  rw [packTriples_flattenPixels, List.map_map]
  exact (List.map_congr_left fun p _ => packPixel_unpack p).trans (List.map_id' ws)

/-- Settles O19: the layout has three bytes for each word, and packing it gives the words. -/
theorem encodeOfDecodedImage : Obligations.EncodeOfDecodedImage := by
  unfold Obligations.EncodeOfDecodedImage
  intro s hw hh hcap hlen
  refine ⟨_, exec_decode_of_fits hw hh hcap hlen, fun s' hparams hwidth hheight hbytes => ?_⟩
  have count : s'.req.inBytes.length = 3 * (s.req.width * s.req.height) := by
    rw [hbytes, flattenPixels_length, decodedImage_pixels_length, hlen]
  have words : packTriples s'.req.inBytes = s.req.inWords := by
    rw [hbytes]
    exact packTriples_flattenPixels_map_unpackPixel s.req.inWords
  rw [← words]
  exact exec_encode_of_fits (hwidth ▸ hw) (hheight ▸ hh) (by rwa [hparams, hwidth, hheight])
    (by rw [count, hwidth, hheight])

end Sys2Proof.Machine
end

section
/-! The laws between B2W and W2B (spec/43_reinterpret.md section 3), in one byte order and in two, and the raw files
that DECODE accepts and ENCODE gives (sections 1 and 2). -/

namespace Sys2Proof.Machine

/-! ### The bytes of a word buffer -/

/-- Settles O24: bytes `2i` and `2i+1` are the first and the second byte of word `i`, in the byte order `ENDIAN`
fixes. -/
theorem w2bBytesOfEachWord : Obligations.W2bBytesOfEachWord := by
  unfold Obligations.W2bBytesOfEachWord
  intro s
  refine ⟨_, exec_w2b s, bytesOfWords_length _ _, fun i w hi => ?_⟩
  rw [bytesOfWords_getElem?_even, bytesOfWords_getElem?_odd, hi, ← firstByte_eq_ite, ← secondByte_eq_ite]
  exact ⟨rfl, rfl⟩

/-- The two-byte read at word `i`'s place, in any byte order, is of the two bytes that were written for word `i`. -/
theorem memRead16_bytesOfWords (e e' : Endian) {ws : List U16} {i : Nat} {w : U16} (h : ws[i]? = some w) :
    memRead16 e' (bytesOfWords e ws) (2 * i) = some (wordOfBytes e' (firstByte e w) (secondByte e w)) := by
  apply memRead16_of_getElem?
  · rw [bytesOfWords_getElem?_even, h, Option.map_some]
  · rw [bytesOfWords_getElem?_odd, h, Option.map_some]

/-! ### One byte order -/

theorem wordsOfBytes_bytesOfWords (e : Endian) (ws : List U16) : wordsOfBytes e (bytesOfWords e ws) = ws := by
  induction ws with
  | nil => rfl
  | cons w rest ih => rw [bytesOfWords, wordsOfBytes, wordOfBytes_bytes, ih]

theorem bytesOfWords_wordsOfBytes (e : Endian) (bs : List U8) :
    bytesOfWords e (wordsOfBytes e bs) = bs.take (2 * (bs.length / 2)) := by
  induction bs using wordsOfBytes.induct with
  | case1 b0 b1 rest ih =>
    have pairs : 2 * ((b0 :: b1 :: rest).length / 2) = 2 * (rest.length / 2) + 1 + 1 := by
      simp only [List.length_cons]
      omega
    rw [wordsOfBytes, bytesOfWords, firstByte_word, secondByte_word, ih, pairs, List.take_succ_cons,
      List.take_succ_cons]
  | case2 b => simp [wordsOfBytes, bytesOfWords]
  | case3 => rfl

/-- Settles O25: each view undoes the other, the bytes of the pairs being those before an odd trailing one. -/
theorem viewsAreInverse : Obligations.ViewsAreInverse := by
  unfold Obligations.ViewsAreInverse
  refine ⟨fun s => ⟨_, exec_w2b s, fun s' he hin => ?_⟩, fun s => ⟨_, exec_b2w s, fun s' he hin => ?_⟩⟩
  · rw [exec_b2w, he, hin, wordsOfBytes_bytesOfWords]
  · rw [exec_w2b, he, hin, bytesOfWords_wordsOfBytes]

/-! ### Two byte orders -/

/-- A word written in one byte order and read in the other has its bytes swapped (R42). -/
theorem wordOfBytes_other_endian {e e' : Endian} (h : e' ≠ e) (w : U16) :
    wordOfBytes e' (firstByte e w) (secondByte e w) = w.extractLsb' 0 8 ++ w.extractLsb' 8 8 := by
  cases e <;> cases e'
  · exact absurd rfl h
  · rfl
  · rfl
  · exact absurd rfl h

/-- Settles O26: word `i` is the read, in the other byte order, of the bytes written for word `i`. -/
theorem otherEndianSwapsBytes : Obligations.OtherEndianSwapsBytes := by
  unfold Obligations.OtherEndianSwapsBytes
  refine fun s => ⟨_, exec_w2b s, fun s' he hin => ⟨_, exec_b2w s', ?_, fun i w hi => ?_⟩⟩
  · rw [hin, wordsOfBytes_length, bytesOfWords_length, Nat.mul_div_cancel_left _ (by decide)]
  · rw [hin, wordsOfBytes_getElem?, memRead16_bytesOfWords _ _ hi, wordOfBytes_other_endian he]

/-! ### Raw files -/

/-- DECODE of positive dimensions within capacity answers `OK` with an image exactly on `W*H` words. -/
theorem exec_decode_ok_iff {s : State} (hw : 0 < s.req.width) (hh : 0 < s.req.height)
    (hcap : withinCapacity s.params (s.req.width * s.req.height)) :
    (∃ img : Image, exec .decode s = .next { s with
        rsp := some { bareResponse 0 with outImg := some img }, record := none }) ↔
      s.req.inWords.length = s.req.width * s.req.height :=
  ⟨fun ⟨_, ok⟩ => (exec_decode_outImg ok rfl rfl).2, fun hlen => ⟨_, exec_decode_of_fits hw hh hcap hlen⟩⟩

/-- Settles O27: `L` bytes give `L / 2` words, of which DECODE needs `W*H`. -/
theorem rawFileLengthsAccepted : Obligations.RawFileLengthsAccepted := by
  unfold Obligations.RawFileLengthsAccepted
  refine fun s => ⟨_, exec_b2w s, fun s' hin hw hh hcap => ?_⟩
  rw [exec_decode_ok_iff hw hh hcap, hin, wordsOfBytes_length]
  omega

/-- Settles O28: W2B writes each of ENCODE's `W*H` words at its place, and a read there gives it back. -/
theorem encodedFileLayout : Obligations.EncodedFileLayout := by
  unfold Obligations.EncodedFileLayout
  intro s hw hh hcap hlen
  refine ⟨_, exec_encode_of_fits hw hh hcap hlen, fun s' hparams hin => ⟨_, exec_w2b s', ?_, fun i hi => ?_⟩⟩
  · rw [bytesOfWords_length, hin, packTriples_length_of_eq hlen]
  · have word := List.getElem?_eq_getElem (hi.trans_eq (packTriples_length_of_eq hlen).symm)
    exact ⟨_, word, by rw [hparams, hin, memRead16_bytesOfWords _ _ word, wordOfBytes_bytes]⟩

end Sys2Proof.Machine
end

section
/-! Steps (spec/10_state.md, spec/70_reset_and_hazards.md sections 1 and 3): which instruction a step performs, what its
response depends on, the parameters, and reset. -/

namespace Sys2Proof.Machine

/-! ### The block's step -/

/-- Where nothing is listed the block moves (log entry 5), and so it does where its move is listed. -/
theorem blockNext_and_tail {s : State} {ms : List Move} (h : (s.moves = [] ∧ ms = []) ∨ s.moves = .block :: ms) :
    s.blockNext = true ∧ s.moves.tail = ms := by
  obtain ⟨hm, rfl⟩ | hm := h <;> simp [State.blockNext, hm]

/-- Settles O34: the decoded instruction's answer is what is delivered, and to no host nothing is. -/
theorem stepPerformsTheDecodedInstruction : Obligations.StepPerformsTheDecodedInstruction := by
  unfold Obligations.StepPerformsTheDecodedInstruction
  intro s ms e rest i hmoves hp hdec
  obtain ⟨hb, rfl⟩ := blockNext_and_tail hmoves
  obtain rfl : decodeCommand e.req.cmd = i := by simpa [decodeBytes] using hdec
  obtain ⟨r, c, hans⟩ := exists_isAnswer s.params e.req
  have hexec : exec (decodeCommand e.req.cmd) { s with moves := s.moves.tail, pending := rest, req := e.req } =
      .next (s.answered e rest r c) := hans _ rfl rfl
  rw [step_answers hb hp hans, hexec]
  refine ⟨?_, deliver_none e.sender (s.answered e rest r c)⟩
  rintro _ ⟨⟩
  rfl

/-- Settles O35: the fetch word's request is the oldest, and its sender is no host. -/
theorem fetchWordRunsNext : Obligations.FetchWordRunsNext := by
  unfold Obligations.FetchWordRunsNext
  intro s w
  have lowByte : BitVec.ofNat 8 (w % 2 ^ 8) = BitVec.ofNat 8 w := BitVec.eq_of_toNat_eq (by simp)
  have noSender : s.hosts[s.hosts.length]? = none := by simp
  have hstep := (stepPerformsTheDecodedInstruction (s.withFetchWord 8 w) s.moves _ _ _ (.inr rfl)
    (withFetchWord_pending s 8 w) rfl).2 noSender
  rw [lowByte] at hstep
  exact hstep

/-- What the block's step leaves: the answer, and every host but the sender as it was. -/
theorem step_answers_frame {s t : State} {e : Pending} {rest : List Pending} {r : Response} {c : Option ErrorInfo}
    (hb : s.blockNext = true) (hp : s.pending = e :: rest) (hans : IsAnswer s.params e.req r c)
    (h : step s = .next t) :
    ∃ hosts, t = { s.answered e rest r c with hosts := hosts } ∧ ReceivedBy r s.hosts[e.sender]? hosts[e.sender]? ∧
      ∀ m, m ≠ e.sender → hosts[m]? = s.hosts[m]? := by
  have hdel := (step_answers hb hp hans).symm.trans h
  obtain ⟨hosts, rfl, hothers⟩ := deliver_frame hdel
  exact ⟨hosts, rfl, deliver_receivedBy (s := s.answered e rest r c) hdel rfl, hothers⟩

/-- Settles O36: equal requests on equal parameters have one answer, and a delivery leaves it at the port. -/
theorem responseDependsOnRequestOnly : Obligations.ResponseDependsOnRequestOnly := by
  unfold Obligations.ResponseDependsOnRequestOnly
  intro s s' t t' e e' rest rest' hparams hb hb' hp hp' hreq h h'
  obtain ⟨r, c, hans⟩ := exists_isAnswer s.params e.req
  obtain ⟨hosts, rfl, -⟩ := step_answers_frame hb hp hans h
  obtain ⟨hosts', rfl, -⟩ := step_answers_frame hb' hp' (hparams ▸ hreq ▸ hans) h'
  exact ⟨⟨r, rfl⟩, rfl, rfl⟩

/-! ### The parameters (R27) -/

theorem step_params {s t : State} (h : step s = .next t) : t.params = s.params := by
  obtain ⟨ms, rfl⟩ | ⟨e, rest, r, c, hb, hp, hans, -⟩ | ⟨n, ms, a, f, dst, prog, v, -, -, -, -, rfl⟩ |
    ⟨n, ms, a, cmd, prog, q, w, -, -, -, -, rfl⟩ | ⟨ms, rfl⟩ := step_next_cases h
  · rfl
  · obtain ⟨hosts, rfl, -⟩ := step_answers_frame hb hp hans h
    rfl
  · rfl
  · rfl
  · rfl

/-- Settles O37: by induction on the run, no step changing the parameters. -/
theorem parametersNeverChange : Obligations.ParametersNeverChange := by
  unfold Obligations.ParametersNeverChange
  intro s t run
  induction run with
  | refl => rfl
  | tail t u _ last ih => exact (step_params last).trans ih

/-! ### Reset (R34, R160) -/

/-- Settles O39: the reset move is `State.resetBlock`. -/
theorem resetMoveKeepsTheRest : Obligations.ResetMoveKeepsTheRest := by
  unfold Obligations.ResetMoveKeepsTheRest
  exact fun s ms hm => step_reset hm

theorem readField_none (f : RspField) : readField none f = .error (.noValue f) := rfl

/-- Settles O38: the ports are empty at reset and after the reset move, which keeps the hosts. -/
theorem resetEmptiesThePorts : Obligations.ResetEmptiesThePorts := by
  unfold Obligations.ResetEmptiesThePorts
  refine ⟨⟨rfl, rfl, readField_none⟩, fun s ms hm => ?_⟩
  exact ⟨_, step_reset hm, rfl, rfl, readField_none, fun n a ha => ⟨a, ha, rfl⟩⟩

end Sys2Proof.Machine
end

section
/-! The block answers every request (spec/70_reset_and_hazards.md section 3, R168), and the order of requests of
different senders is free (spec/20_memory.md section 4, R50). -/

namespace Sys2Proof.Machine

/-! ### A host that waits for an answer can take it -/

theorem withResult_some {α : Type} {x : Option α} {f : RspField} {v : α}
    {k : α → Host.Outcome HostAgent Fault Refusal} (h : x = some v) : withResult x f k = k v := by
  rw [h]
  rfl

/-- A response that holds the results of an operation has all that a host waiting for that operation takes. -/
theorem exists_takeResult {i : Instr} {r : Response} {w : Waiting} (a : HostAgent) (hold : HoldsResultsOf i r)
    (hfits : waitFits w i = true) : ∃ a', takeResult r a w = .next a' := by
  obtain ⟨hred, hgreen, hblue, hpixel, himage, hwords, hbytes⟩ := (holdsResultsOf_iff i r).mp hold
  cases w with
  | status => exact ⟨a, rfl⟩
  | channels dst =>
    obtain rfl : i = .unpack565 := by simpa [waitFits] using hfits
    obtain ⟨red, hred⟩ := Option.isSome_iff_exists.mp (hred.mpr (by simp [resultFields]))
    obtain ⟨green, hgreen⟩ := Option.isSome_iff_exists.mp (hgreen.mpr (by simp [resultFields]))
    obtain ⟨blue, hblue⟩ := Option.isSome_iff_exists.mp (hblue.mpr (by simp [resultFields]))
    rw [takeResult, withResult_some hred, withResult_some hgreen, withResult_some hblue]
    cases dst <;> exact ⟨_, rfl⟩
  | pixel dst =>
    obtain rfl : i = .pack888 := by simpa [waitFits] using hfits
    obtain ⟨p, hp⟩ := Option.isSome_iff_exists.mp (hpixel.mpr (by simp [resultFields]))
    exact ⟨_, withResult_some hp⟩
  | image dst =>
    obtain rfl : i = .decode := by simpa [waitFits] using hfits
    obtain ⟨im, him⟩ := Option.isSome_iff_exists.mp (himage.mpr (by simp [resultFields]))
    exact ⟨_, withResult_some him⟩
  | words dst =>
    have written : .outWords ∈ resultFields i := by
      obtain rfl | rfl : i = .encode ∨ i = .b2w := by simpa [waitFits] using hfits
      · simp [resultFields]
      · simp [resultFields]
    obtain ⟨ws, hws⟩ := Option.isSome_iff_exists.mp (hwords.mpr written)
    exact ⟨_, withResult_some hws⟩
  | bytes dst =>
    obtain rfl : i = .w2b := by simpa [waitFits] using hfits
    obtain ⟨bs, hbs⟩ := Option.isSome_iff_exists.mp (hbytes.mpr (by simp [resultFields]))
    exact ⟨_, withResult_some hbs⟩
  | thenDecode w h dst =>
    obtain rfl : i = .b2w := by simpa [waitFits] using hfits
    obtain ⟨ws, hws⟩ := Option.isSome_iff_exists.mp (hwords.mpr (by simp [resultFields]))
    exact ⟨_, withResult_some hws⟩
  | thenW2b dst =>
    obtain rfl : i = .encode := by simpa [waitFits] using hfits
    obtain ⟨ws, hws⟩ := Option.isSome_iff_exists.mp (hwords.mpr (by simp [resultFields]))
    exact ⟨_, withResult_some hws⟩

/-- A host that gets an error keeps everything but its latest response (R152, R167). -/
theorem receive_error (e : ErrorInfo) (a : HostAgent) :
    receive (emptyResponse (errorStatus e)) a =
      .next { a with last := some (emptyResponse (errorStatus e)), waiting := none } :=
  receive_failed _ a (errorStatus e) (statusOfCode_statusCode _) (errorStatus_ne_ok e)

theorem receive_of_status_ok {r : Response} {a : HostAgent} {w : Waiting} (hok : r.status = statusCode .ok)
    (hw : a.waiting = some w) : receive r a = takeResult r { a with last := some r, waiting := none } w := by
  rw [receive_ok r a (by rw [hok, statusOfCode_statusCode]), hw, Option.getD_some]

theorem IsAnswer.exists_receive {p : Params} {q : Request} {r : Response} {c : Option ErrorInfo}
    (hans : IsAnswer p q r c) {a : HostAgent} {w : Waiting} (hw : a.waiting = some w)
    (hfits : waitFits w (decodeCommand q.cmd) = true) : ∃ a', receive r a = .next a' := by
  obtain ⟨e, rfl⟩ | ⟨hok, hold⟩ := hans.cases
  · exact ⟨_, receive_error e a⟩
  · rw [receive_of_status_ok hok hw]
    exact exists_takeResult _ hold hfits

/-! ### The block's step under the invariant -/

theorem State.Inv.exists_step_answers {s : State} (h : s.Inv) {e : Pending} {rest : List Pending}
    (hb : s.blockNext = true) (hp : s.pending = e :: rest) : ∃ t, step s = .next t := by
  obtain ⟨r, c, hans⟩ := exists_isAnswer s.params e.req
  rw [step_answers hb hp hans]
  cases ha : s.hosts[e.sender]? with
  | none => exact ⟨_, deliver_none e.sender (s.answered e rest r c) ha⟩
  | some a =>
    obtain ⟨w, hw, hfits⟩ := (senderWaits_iff _ _).mp (h.senders_wait e (hp ▸ List.mem_cons_self ..)) a ha
    obtain ⟨a', hrec⟩ := hans.exists_receive hw hfits
    exact ⟨_, deliver_some (s := s.answered e rest r c) ha rfl hrec⟩

/-- Settles O42: the sender waits for results that the answer holds, so the delivery goes through. -/
theorem blockNeverStalls : Obligations.BlockNeverStalls := by
  unfold Obligations.BlockNeverStalls
  intro s e rest h hb hp
  obtain ⟨t, hstep⟩ := h.exists_step_answers hb hp
  obtain ⟨r, c, hans⟩ := exists_isAnswer s.params e.req
  obtain ⟨hosts, rfl, -⟩ := step_answers_frame hb hp hans hstep
  exact ⟨_, r, hstep, rfl, rfl, rfl, hans.good.1⟩

theorem blockNext_of_no_moves {s : State} (hm : s.moves = []) : s.blockNext = true := by
  simp [State.blockNext, hm]

/-- The block's step leaves the list of moves empty where it was. -/
theorem step_no_moves {s t : State} (hm : s.moves = []) (h : step s = .next t) : t.moves = [] := by
  have hb := blockNext_of_no_moves hm
  by_cases hp : s.pending = []
  · cases (step_idle hb hp).symm.trans h
    simp [hm]
  · obtain ⟨e, rest, hp⟩ := List.exists_cons_of_ne_nil hp
    obtain ⟨r, c, hans⟩ := exists_isAnswer s.params e.req
    obtain ⟨hosts, rfl, -⟩ := step_answers_frame hb hp hans h
    simp [hm]

/-- Settles O43: by induction on the requests pending, each step answering one and keeping the invariant. -/
theorem pendingRequestsAllAnswered : Obligations.PendingRequestsAllAnswered := by
  unfold Obligations.PendingRequestsAllAnswered
  intro s h hm
  induction hp : s.pending generalizing s with
  | nil => exact ⟨s, rfl, hp, h, fun hne => absurd rfl hne⟩
  | cons e rest ih =>
    obtain ⟨t, r, hstep, hr, -, hpending, hgood⟩ := blockNeverStalls s e rest h (blockNext_of_no_moves hm) hp
    obtain ⟨u, hrun, hdone, hu, hlast⟩ := ih t (stepKeepsInvariant s t h hstep) (step_no_moves hm hstep) hpending
    refine ⟨u, (run_of_step hstep).trans hrun, hdone, hu, fun _ => ?_⟩
    by_cases hrest : rest = []
    · subst hrest
      cases hrun
      exact ⟨r, hr, hgood⟩
    · exact hlast hrest

/-! ### Two requests of different senders -/

/-- Two steps of the block answer the two oldest requests, each sender receiving its own answer. -/
theorem run_two_answers {s : State} {a b : Pending} {rest : List Pending} {ra rb : Response} {ca cb : Option ErrorInfo}
    (h : s.Inv) (hm : s.moves = []) (hp : s.pending = a :: b :: rest) (hne : a.sender ≠ b.sender)
    (hansA : IsAnswer s.params a.req ra ca) (hansB : IsAnswer s.params b.req rb cb) :
    ∃ t, Sys2Proof.core.run 2 s = .next t ∧ t.pending = rest ∧ t.params = s.params ∧
      ReceivedBy ra s.hosts[a.sender]? t.hosts[a.sender]? ∧ ReceivedBy rb s.hosts[b.sender]? t.hosts[b.sender]? ∧
      ∀ m, m ≠ a.sender → m ≠ b.sender → t.hosts[m]? = s.hosts[m]? := by
  have hb := blockNext_of_no_moves hm
  obtain ⟨t, hstep⟩ := h.exists_step_answers hb hp
  obtain ⟨hosts, rfl, hrecA, hothers⟩ := step_answers_frame hb hp hansA hstep
  have hb' := blockNext_of_no_moves (step_no_moves hm hstep)
  obtain ⟨u, hstep'⟩ := (stepKeepsInvariant _ _ h hstep).exists_step_answers hb' rfl
  obtain ⟨hosts', rfl, hrecB, hothers'⟩ := step_answers_frame hb' rfl hansB hstep'
  refine ⟨_, (run_of_step hstep).trans (run_of_step hstep'), rfl, rfl, ?_, ?_,
    fun m hmA hmB => (hothers' m hmB).trans (hothers m hmA)⟩
  · exact (hothers' _ hne).symm ▸ hrecA
  · exact hothers _ hne.symm ▸ hrecB

theorem State.Inv.swap {s : State} {a b : Pending} {rest : List Pending}
    (h : State.Inv { s with pending := a :: b :: rest }) : State.Inv { s with pending := b :: a :: rest } := by
  have swapped : (b :: a :: rest).Perm (a :: b :: rest) := List.Perm.swap a b rest
  refine ⟨fun e he => h.requests_fit e (swapped.mem_iff.mp he), h.response_good, h.record_agrees, h.hosts_good,
    fun e he => h.senders_wait e (swapped.mem_iff.mp he), ?_⟩
  exact h.one_at_a_time.perm swapped.symm fun hone hsame => hsame ▸ hone hsame.symm

/-- Settles O44: in either order each sender receives the one answer to its request, and no other host changes. -/
theorem orderBetweenSendersIsFree : Obligations.OrderBetweenSendersIsFree := by
  unfold Obligations.OrderBetweenSendersIsFree
  intro s a b rest hm hne h
  obtain ⟨ra, ca, hansA⟩ := exists_isAnswer s.params a.req
  obtain ⟨rb, cb, hansB⟩ := exists_isAnswer s.params b.req
  obtain ⟨t, hrun, hpending, hparams, hA, hB, hothers⟩ := run_two_answers h hm rfl hne hansA hansB
  obtain ⟨t', hrun', hpending', hparams', hB', hA', hothers'⟩ := run_two_answers h.swap hm rfl hne.symm hansB hansA
  refine ⟨t, t', hrun, hrun', List.ext_getElem? fun m => ?_, hpending, hpending', hparams.trans hparams'.symm⟩
  by_cases hmA : m = a.sender
  · exact hmA ▸ hA.unique hA'
  by_cases hmB : m = b.sender
  · exact hmB ▸ hB.unique hB'
  · exact (hothers m hmA hmB).trans (hothers' m hmB hmA).symm

end Sys2Proof.Machine
end

section
/-! The hosts (spec/70_reset_and_hazards.md section 2, spec/20_memory.md section 4): which host a step changes, when its
display changes, and the fault of reading a field that holds no value. -/

namespace Sys2Proof.Machine

/-! ### Which host a step changes -/

/-- What a step does to host `m`: nothing, the block answers the host's request, or the host itself reads or sends. -/
theorem step_host_cases {s t : State} (h : step s = .next t) (m : Nat) :
    t.hosts[m]? = s.hosts[m]? ∨
    (∃ e rest r c, s.blockNext = true ∧ s.pending = e :: rest ∧ e.sender = m ∧ IsAnswer s.params e.req r c ∧
      t.rsp = some r ∧ ReceivedBy r s.hosts[m]? t.hosts[m]?) ∨
    (∃ ms a a', s.moves = .host m :: ms ∧ s.hosts[m]? = some a ∧ t.hosts[m]? = some a' ∧ a'.display = a.display) := by
  obtain ⟨ms, rfl⟩ | ⟨e, rest, r, c, hb, hp, hans, -⟩ | ⟨n, ms, a, f, dst, prog, v, hm, ha, -, -, rfl⟩ |
    ⟨n, ms, a, cmd, prog, q, w, hm, ha, -, -, rfl⟩ | ⟨ms, rfl⟩ := step_next_cases h
  · exact .inl rfl
  · obtain ⟨hosts, rfl, hrec, hothers⟩ := step_answers_frame hb hp hans h
    by_cases hsender : e.sender = m
    · exact .inr (.inl ⟨e, rest, r, c, hb, hp, hsender, hans, rfl, hsender ▸ hrec⟩)
    · exact .inl (hothers m (Ne.symm hsender))
  · by_cases hnm : n = m
    · subst hnm
      exact .inr (.inr ⟨ms, a, _, hm, ha, List.getElem?_set_self (List.getElem?_eq_some_iff.mp ha).1, by simp⟩)
    · exact .inl (List.getElem?_set_ne hnm)
  · by_cases hnm : n = m
    · subst hnm
      exact .inr (.inr ⟨ms, a, _, hm, ha, List.getElem?_set_self (List.getElem?_eq_some_iff.mp ha).1, rfl⟩)
    · exact .inl (List.getElem?_set_ne hnm)
  · exact .inl rfl

/-- Settles O47: by what a step does to the host. -/
theorem hostsAreIsolated : Obligations.HostsAreIsolated := by
  unfold Obligations.HostsAreIsolated
  intro s t m h hchanged
  obtain hsame | ⟨e, rest, r, c, hb, hp, hsender, -⟩ | ⟨ms, a, a', hm, -⟩ := step_host_cases h m
  · exact absurd hsame hchanged
  · exact .inr ⟨hb, e, rest, hp, hsender⟩
  · exact .inl ⟨ms, hm⟩

/-! ### The display (R152, R167) -/

/-- Only DECODE writes `OUT_IMG` (R23). -/
theorem eq_decode_of_outImg {i : Instr} {r : Response} {im : Image} (hold : HoldsResultsOf i r)
    (him : r.outImg = some im) : i = .decode := by
  have written : .outImg ∈ resultFields i := (hold .outImg (by decide)).mp (by simp [responseValue, him])
  cases i <;> simp [resultFields] at written ⊢

/-- A host's display changes only to the image of a DECODE that succeeds. -/
theorem IsAnswer.receive_display {p : Params} {q : Request} {r : Response} {c : Option ErrorInfo}
    (hans : IsAnswer p q r c) {a a' : HostAgent} (hrec : receive r a = .next a') (hchanged : a'.display ≠ a.display) :
    decodeCommand q.cmd = .decode ∧ r.status = 0 ∧ ∃ im, r.outImg = some im ∧ a'.display = some im := by
  obtain ⟨e, rfl⟩ | ⟨hok, hold⟩ := hans.cases
  · cases (receive_error e a).symm.trans hrec
    exact absurd rfl hchanged
  · rw [receive_ok r a (by rw [hok, statusOfCode_statusCode])] at hrec
    obtain hsame | ⟨im, him, hdisplay⟩ := takeResult_display hrec
    · exact absurd hsame hchanged
    · exact ⟨eq_decode_of_outImg hold him, hok, im, him, hdisplay⟩

/-- A host that gets a response whose status is not `OK` keeps everything but its latest response (R152, R167). -/
theorem receive_of_status_ne_ok {i : Instr} {u v : State} {r : Response} (h : exec i u = .next v) (hr : v.rsp = some r)
    (failed : r.status ≠ 0) (a : HostAgent) : receive r a = .next { a with last := some r, waiting := none } := by
  obtain ⟨e, rfl⟩ | ⟨hok, -⟩ := exec_response_cases h hr
  · exact receive_error e a
  · exact absurd hok failed

/-- Settles O45: only a step that answers the host's request changes its display, and a failed answer nothing of it. -/
theorem displayChangesOnlyOnDecodeOk : Obligations.DisplayChangesOnlyOnDecodeOk := by
  unfold Obligations.DisplayChangesOnlyOnDecodeOk
  intro s t n a a' h ha ha'
  refine ⟨fun hchanged => ?_, fun e rest r hb hp hsender hr failed => ?_⟩
  · obtain hsame | ⟨e, rest, r, c, hb, hp, hsender, hans, hr, hrec⟩ | ⟨ms, b, b', -, hb, hb', hkept⟩ :=
      step_host_cases h n
    · cases ha'.symm.trans (hsame.trans ha)
      exact absurd rfl hchanged
    · rw [ha, ha'] at hrec
      obtain ⟨_, hrec, ⟨⟩⟩ := hrec
      obtain ⟨hcmd, hok, im, him, hdisplay⟩ := hans.receive_display hrec hchanged
      exact ⟨e, rest, r, im, hb, hp, hsender, hcmd, hr, hok, him, hdisplay⟩
    · cases ha.symm.trans hb
      cases ha'.symm.trans hb'
      exact absurd hkept hchanged
  · obtain ⟨r', c, hans⟩ := exists_isAnswer s.params e.req
    obtain ⟨hosts, rfl, hrec, -⟩ := step_answers_frame hb hp hans h
    cases hr
    rw [hsender, ha] at hrec
    obtain ⟨b, hrec, hb'⟩ := hrec
    cases ha'.symm.trans hb'
    cases hrec.symm.trans (receive_of_status_ne_ok hans.exec_eq rfl failed a)
    rfl

/-! ### Reading a field that holds no value (R25, R163) -/

/-- Settles O46: the read of a field that holds no value is a fault, and so is the host's move that reads it. -/
theorem hostReadOfNoValueFaults : Obligations.HostReadOfNoValueFaults := by
  unfold Obligations.HostReadOfNoValueFaults
  refine ⟨fun i u v r s n a f dst prog ms h hr hf hnone hm ha hw hp hlast => ?_,
    fun s n a f dst prog ms hm ha hw hp hlast => ?_, fun i u v r a h hr failed => receive_of_status_ne_ok h hr failed a⟩
  · obtain ⟨ofFailed, ofUnlisted, -⟩ := unwrittenFieldsFault i u v r f h hr hf
    have noValue := hnone.elim ofFailed ofUnlisted
    exact step_read_fault hm ha hw hp (by rw [hlast, ← hr, noValue])
  · exact step_read_fault hm ha hw hp (by rw [hlast, readField_none])

end Sys2Proof.Machine
end

section
/-! The statements of a host (spec/30_encoding.md section 6): the request that each makes, and the move that sends
it. -/

namespace Sys2Proof.Machine

/-! ### Operands: a literal, or a name bound to a value of the operand's type (R69) -/

section
variable {names : List (Nat × Value)}

theorem wordOperand_eq {x : Operand U16} {v : U16}
    (h : x = .lit v ∨ ∃ n, x = .name n ∧ lookupName names n = some (.word v)) : wordOperand names x = .ok v := by
  obtain rfl | ⟨n, rfl, hn⟩ := h
  · rfl
  · simp only [wordOperand, hn]

theorem byteOperand_eq {x : Operand U8} {v : U8}
    (h : x = .lit v ∨ ∃ n, x = .name n ∧ lookupName names n = some (.byte v)) : byteOperand names x = .ok v := by
  obtain rfl | ⟨n, rfl, hn⟩ := h
  · rfl
  · simp only [byteOperand, hn]

theorem wordsOperand_eq {x : Operand (List U16)} {ws : List U16}
    (h : x = .lit ws ∨ ∃ n, x = .name n ∧ lookupName names n = some (.words ws)) : wordsOperand names x = .ok ws := by
  obtain rfl | ⟨n, rfl, hn⟩ := h
  · rfl
  · simp only [wordsOperand, hn]

theorem bytesOperand_eq {x : Operand (List U8)} {bs : List U8}
    (h : x = .lit bs ∨ ∃ n, x = .name n ∧ lookupName names n = some (.bytes bs)) : bytesOperand names x = .ok bs := by
  obtain rfl | ⟨n, rfl, hn⟩ := h
  · rfl
  · simp only [bytesOperand, hn]

end

theorem dimsFit_iff {p : Params} {w h : Nat} :
    dimsFit p w h = true ↔ w < 2 ^ (p.dimBits : Nat) ∧ h < 2 ^ (p.dimBits : Nat) := by
  simp [dimsFit]

theorem dimOperands_of_not_fits {p : Params} {w h : Nat} (hfit : ¬ dimsFit p w h = true) :
    dimOperands p w h = .error (.dimTooWide w h) := if_neg hfit

/-! ### The requests -/

/-- The request of `DECODE w=<n>, h=<n>, words=<buffer>`. -/
def decodeRequest (w h : Nat) (ws : List U16) : Request :=
  { Request.blank with cmd := 0x02, width := w, height := h, inWords := ws }

/-- The request of `ENCODE w=<n>, h=<n>, bytes=<buffer>`. -/
def encodeRequest (w h : Nat) (bs : List U8) : Request :=
  { Request.blank with cmd := 0x03, width := w, height := h, inBytes := bs }

/-- The request of `B2W bytes=<buffer>`. -/
def b2wRequest (bs : List U8) : Request := { Request.blank with cmd := 0x04, inBytes := bs }

/-- The request of `W2B words=<buffer>`. -/
def w2bRequest (ws : List U16) : Request := { Request.blank with cmd := 0x05, inWords := ws }

@[simp] theorem decodeCommand_decodeRequest (w h : Nat) (ws : List U16) :
    decodeCommand (decodeRequest w h ws).cmd = .decode := (decodeCommand_eq_iff rfl _).mpr rfl

@[simp] theorem decodeCommand_encodeRequest (w h : Nat) (bs : List U8) :
    decodeCommand (encodeRequest w h bs).cmd = .encode := (decodeCommand_eq_iff rfl _).mpr rfl

@[simp] theorem decodeCommand_b2wRequest (bs : List U8) : decodeCommand (b2wRequest bs).cmd = .b2w :=
  (decodeCommand_eq_iff rfl _).mpr rfl

@[simp] theorem decodeCommand_w2bRequest (ws : List U16) : decodeCommand (w2bRequest ws).cmd = .w2b :=
  (decodeCommand_eq_iff rfl _).mpr rfl

section
variable {p : Params} {names : List (Nat × Value)} {w h : Nat}

theorem requestOf_decode {x : Operand (List U16)} {ws : List U16} (dst : Option Nat) (hfit : dimsFit p w h = true)
    (hx : wordsOperand names x = .ok ws) : requestOf p names (.decode w h x dst) =
      .ok (decodeRequest w h ws, .image dst) := by
  rw [requestOf, dimOperands_of_fits hfit, hx]
  rfl

theorem requestOf_encode {x : Operand (List U8)} {bs : List U8} (dst : Option Nat) (hfit : dimsFit p w h = true)
    (hx : bytesOperand names x = .ok bs) : requestOf p names (.encode w h x dst) =
      .ok (encodeRequest w h bs, .words dst) := by
  rw [requestOf, dimOperands_of_fits hfit, hx]
  rfl

theorem requestOf_w2b {x : Operand (List U16)} {ws : List U16} (dst : Option Nat)
    (hx : wordsOperand names x = .ok ws) : requestOf p names (.w2b x dst) =
      .ok (w2bRequest ws, .bytes dst) := by
  rw [requestOf, hx]
  rfl

theorem requestOf_rawDecode {x : Operand (List U8)} {bs : List U8} (dst : Option Nat)
    (hx : bytesOperand names x = .ok bs) : requestOf p names (.rawDecode w h x dst) =
      .ok (b2wRequest bs, .thenDecode w h dst) := by
  rw [requestOf, hx]
  rfl

theorem requestOf_rawEncode {x : Operand (List U8)} {bs : List U8} (dst : Option Nat) (hfit : dimsFit p w h = true)
    (hx : bytesOperand names x = .ok bs) : requestOf p names (.rawEncode w h x dst) =
      .ok (encodeRequest w h bs, .thenW2b dst) := by
  rw [requestOf, dimOperands_of_fits hfit, hx]
  rfl

end

/-- Settles O48: each operand has its value, the dimensions fit, and the request is made of them. -/
theorem statementsMakeTheirRequests : Obligations.StatementsMakeTheirRequests := by
  unfold Obligations.StatementsMakeTheirRequests
  refine fun p names dst => ⟨fun x v d hx => ?_, fun x y z r g b hx hy hz => ?_, fun w h x ws hw hh hx => ?_,
    fun w h x bs hw hh hx => ?_, fun x bs hx => ?_, fun x ws hx => ?_, fun q hw hh => ?_⟩
  · rw [requestOf, wordOperand_eq hx]
    rfl
  · rw [requestOf, byteOperand_eq hx, byteOperand_eq hy, byteOperand_eq hz]
    rfl
  · exact requestOf_decode dst (dimsFit_iff.mpr ⟨hw, hh⟩) (wordsOperand_eq hx)
  · exact requestOf_encode dst (dimsFit_iff.mpr ⟨hw, hh⟩) (bytesOperand_eq hx)
  · rw [requestOf, bytesOperand_eq hx]
    rfl
  · exact requestOf_w2b dst (wordsOperand_eq hx)
  · rw [requestOf, dimOperands_of_fits (dimsFit_iff.mpr ⟨hw, hh⟩)]
    rfl

/-! ### The move that sends a request -/

/-- Settles O49: the host's move is the acceptance of its request. -/
theorem hostMoveSendsItsRequest : Obligations.HostMoveSendsItsRequest := by
  unfold Obligations.HostMoveSendsItsRequest
  exact fun s ms n a c prog q w hm ha hw hp hq => step_send hm ha hw hp hq

/-- A statement whose dimensions do not fit makes no request, whatever its buffer operand. -/
theorem requestOf_of_not_fits {p : Params} {w h : Nat} (names : List (Nat × Value)) (xw : Operand (List U16))
    (xb : Operand (List U8)) (dst : Option Nat) (hfit : ¬ dimsFit p w h = true) :
    requestOf p names (.decode w h xw dst) = .error (.dimTooWide w h) ∧
    requestOf p names (.encode w h xb dst) = .error (.dimTooWide w h) := by
  rw [requestOf, requestOf, dimOperands_of_not_fits hfit]
  exact ⟨rfl, rfl⟩

/-- Settles O51: the dimensions are checked before the buffer operand, and the request sent has them. -/
theorem dimensionsMustFit : Obligations.DimensionsMustFit := by
  unfold Obligations.DimensionsMustFit
  intro s ms n a w h xw xb dst prog hm ha hw hp
  refine ⟨fun hwide => ?_, ?_⟩
  · have hfit : ¬ dimsFit s.params w h = true := by
      rw [dimsFit_iff]
      omega
    obtain ⟨hdecode, hencode⟩ := requestOf_of_not_fits a.bindings xw xb dst hfit
    obtain hp | hp := hp
    · exact step_send_fault hm ha hw hp hdecode
    · exact step_send_fault hm ha hw hp hencode
  · rintro hwFits hhFits ws bs rfl rfl
    have hfit := dimsFit_iff.mpr ⟨hwFits, hhFits⟩
    obtain hp | hp := hp
    · exact ⟨_, _, step_send hm ha hw hp (requestOf_decode dst hfit rfl), rfl, rfl, rfl⟩
    · exact ⟨_, _, step_send hm ha hw hp (requestOf_encode dst hfit rfl), rfl, rfl, rfl⟩

end Sys2Proof.Machine
end

section
/-! RAWDECODE and RAWENCODE (spec/30_encoding.md section 6, R70): each of their two requests is one round of a host's
move and the block's. -/

namespace Sys2Proof.Machine

/-! ### One round: a host sends a request, and the block answers it -/

/-- Two steps from a state with nothing pending: the host's statement is sent, and the host receives the answer. -/
theorem run_round {s : State} {n : Nat} {ms : List Move} {a a' : HostAgent} {cmd : HostCmd} {prog : List HostStmt}
    {q : Request} {w : Waiting} {r : Response} {c : Option ErrorInfo} (hm : s.moves = .host n :: .block :: ms)
    (hpending : s.pending = []) (ha : s.hosts[n]? = some a) (hw : a.waiting = none) (hp : a.program = .send cmd :: prog)
    (hq : requestOf s.params a.bindings cmd = .ok (q, w)) (hans : IsAnswer s.params q r c)
    (hrec : receive r { a with program := prog, waiting := some w } = .next a') :
    ∃ t, (∀ k, Sys2Proof.core.run (k + 2) s = Sys2Proof.core.run k t) ∧ t.params = s.params ∧ t.moves = ms ∧
      t.pending = [] ∧ t.hosts[n]? = some a' := by
  have hn : n < s.hosts.length := (List.getElem?_eq_some_iff.mp ha).1
  obtain ⟨u, hu⟩ : ∃ u : State, u =
    ({ s with moves := .block :: ms }.setHost n { a with program := prog, waiting := some w }).accept n q := ⟨_, rfl⟩
  have hsend : step s = .next u := hu ▸ step_send hm ha hw hp hq
  have hpendingU : u.pending = [{ sender := n, req := q }] := by simp [hu, hpending]
  have hhost : u.hosts[n]? = some { a with program := prog, waiting := some w } := by simp [hu, hn]
  have hparams : u.params = s.params := by simp [hu]
  have hanswer := step_answers (by simp [hu, State.blockNext]) hpendingU (hparams ▸ hans)
  rw [deliver_some (s := u.answered _ [] r c) hhost rfl hrec] at hanswer
  refine ⟨_, fun k => (run_of_step hsend).trans (run_of_step hanswer), ?_, ?_, rfl, ?_⟩ <;> simp [hu, hn]

/-! ### What a host receives in a round -/

section
variable {r : Response} {a : HostAgent} {w h : Nat} {dst : Option Nat} {ws : List U16}

/-- The words of B2W go into the DECODE that RAWDECODE sends next. -/
theorem receive_thenDecode (hok : r.status = 0) (hws : r.outWords = some ws)
    (hw : a.waiting = some (.thenDecode w h dst)) :
    receive r a = .next { a with
      program := .send (.decode w h (.lit ws) dst) :: a.program, last := some r, waiting := none } := by
  rw [receive_of_status_ok hok hw, takeResult, withResult_some hws]

/-- The words of ENCODE go into the W2B that RAWENCODE sends next. -/
theorem receive_thenW2b (hok : r.status = 0) (hws : r.outWords = some ws) (hw : a.waiting = some (.thenW2b dst)) :
    receive r a = .next { a with
      program := .send (.w2b (.lit ws) dst) :: a.program, last := some r, waiting := none } := by
  rw [receive_of_status_ok hok hw, takeResult, withResult_some hws]

/-- The host of a W2B binds its bytes. -/
theorem receive_bytes {bs : List U8} (hok : r.status = 0) (hbs : r.outBytes = some bs)
    (hw : a.waiting = some (.bytes dst)) :
    receive r a = .next ({ a with last := some r, waiting := none }.bindTo dst (.bytes bs)) := by
  rw [receive_of_status_ok hok hw, takeResult, withResult_some hbs]

/-- The host of a DECODE binds its image and displays it. -/
theorem receive_image {im : Image} (hok : r.status = 0) (him : r.outImg = some im)
    (hw : a.waiting = some (.image dst)) :
    receive r a =
      .next { { a with last := some r, waiting := none }.bindTo dst (.image im) with display := some im } := by
  rw [receive_of_status_ok hok hw, takeResult, withResult_some him]

end

theorem lookupName_bindTo_self (a : HostAgent) (n : Nat) (v : Value) :
    lookupName (a.bindTo (some n) v).bindings n = some v := lookupName_bindName_self n v a.bindings

/-! ### The answers of B2W, W2B and DECODE -/

theorem isAnswer_b2w (p : Params) (bs : List U8) : IsAnswer p (b2wRequest bs)
    { bareResponse 0 with outWords := some (wordsOfBytes p.endian bs) } none := by
  rintro s rfl hq
  have hbytes : s.req.inBytes = bs := congrArg Request.inBytes hq
  rw [decodeCommand_b2wRequest, exec_b2w, hbytes]
  rfl

theorem isAnswer_w2b (p : Params) (ws : List U16) : IsAnswer p (w2bRequest ws)
    { bareResponse 0 with outBytes := some (bytesOfWords p.endian ws) } none := by
  rintro s rfl hq
  have hwords : s.req.inWords = ws := congrArg Request.inWords hq
  rw [decodeCommand_w2bRequest, exec_w2b, hwords]
  rfl

theorem HoldsResultsOf.exists_outImg {r : Response} (hold : HoldsResultsOf .decode r) : ∃ im, r.outImg = some im := by
  simpa [responseValue, resultFields, Option.isSome_iff_exists] using hold .outImg

theorem HoldsResultsOf.exists_outWords {r : Response} (hold : HoldsResultsOf .encode r) :
    ∃ ws, r.outWords = some ws := by
  simpa [responseValue, resultFields, Option.isSome_iff_exists] using hold .outWords

/-- The host of a DECODE receives its answer, an image or an error, and binds the image where there is one. -/
theorem IsAnswer.exists_receive_image {p : Params} {w h : Nat} {ws : List U16} {r : Response} {c : Option ErrorInfo}
    (hans : IsAnswer p (decodeRequest w h ws) r c) {a : HostAgent} {dst : Option Nat}
    (hw : a.waiting = some (.image dst)) :
    ∃ a', receive r a = .next a' ∧ a'.last = some r ∧ a'.waiting = none ∧ a'.program = a.program ∧
      ∀ im, r.outImg = some im → ∀ d, dst = some d → lookupName a'.bindings d = some (.image im) := by
  obtain ⟨e, rfl⟩ | ⟨hok, hold⟩ := hans.cases
  · exact ⟨_, receive_error e a, rfl, rfl, rfl, nofun⟩
  · rw [decodeCommand_decodeRequest] at hold
    obtain ⟨im, him⟩ := hold.exists_outImg
    refine ⟨_, receive_image hok him hw, by simp, by simp, by simp, ?_⟩
    rintro _ himg d rfl
    cases him.symm.trans himg
    exact lookupName_bindTo_self _ d _

/-! ### RAWDECODE and RAWENCODE -/

section
variable {s : State} {n : Nat} {a : HostAgent} {w h : Nat} {x : Operand (List U8)} {F : List U8} {dst : Option Nat}
  {prog : List HostStmt} {ms : List Move} {r : Response} {c : Option ErrorInfo}
  (hx : bytesOperand a.bindings x = .ok F) (hfit : dimsFit s.params w h = true) (hpending : s.pending = [])
  (ha : s.hosts[n]? = some a) (hw : a.waiting = none)
include hx hfit hpending ha hw

/-- RAWDECODE: the round of B2W puts the DECODE of its words next, and the round of DECODE ends with its answer. -/
theorem run_rawDecode (hp : a.program = .send (.rawDecode w h x dst) :: prog)
    (hm : s.moves = .host n :: .block :: .host n :: .block :: ms)
    (hans : IsAnswer s.params (decodeRequest w h (wordsOfBytes s.params.endian F)) r c) :
    ∃ t a', Sys2Proof.core.run 4 s = .next t ∧ t.hosts[n]? = some a' ∧ t.pending = [] ∧
      a'.last = some r ∧ a'.waiting = none ∧ a'.program = prog ∧
      ∀ im, r.outImg = some im → ∀ d, dst = some d → lookupName a'.bindings d = some (.image im) := by
  obtain ⟨u, hround, hparams, hmoves, hpendingU, hu⟩ := run_round hm hpending ha hw hp (requestOf_rawDecode dst hx)
    (isAnswer_b2w _ F) (receive_thenDecode rfl rfl rfl)
  obtain ⟨a', hrec, hend⟩ := hans.exists_receive_image (dst := dst) (a := { a with
    program := prog, last := some { bareResponse 0 with outWords := some (wordsOfBytes s.params.endian F) },
    waiting := some (.image dst) }) rfl
  obtain ⟨t, hround', -, -, hdone, ht⟩ := run_round hmoves hpendingU hu rfl rfl
    (requestOf_decode dst (hparams ▸ hfit) rfl) (by rwa [hparams]) hrec
  exact ⟨t, a', (hround 2).trans (hround' 0), ht, hdone, hend⟩

/-- RAWENCODE whose ENCODE succeeds: its round puts the W2B of its words next, whose round ends with the bytes. -/
theorem run_rawEncode {ws : List U16} (hp : a.program = .send (.rawEncode w h x dst) :: prog)
    (hm : s.moves = .host n :: .block :: .host n :: .block :: ms)
    (hans : IsAnswer s.params (encodeRequest w h F) r c) (hok : r.status = 0) (hws : r.outWords = some ws) :
    ∃ t a', Sys2Proof.core.run 4 s = .next t ∧ t.hosts[n]? = some a' ∧ t.pending = [] ∧
      a'.last = some { bareResponse 0 with outBytes := some (bytesOfWords s.params.endian ws) } ∧
      a'.waiting = none ∧ a'.program = prog ∧
      ∀ d, dst = some d → lookupName a'.bindings d = some (.bytes (bytesOfWords s.params.endian ws)) := by
  obtain ⟨u, hround, hparams, hmoves, hpendingU, hu⟩ := run_round hm hpending ha hw hp
    (requestOf_rawEncode dst hfit hx) hans (receive_thenW2b hok hws rfl)
  obtain ⟨t, hround', -, -, hdone, ht⟩ := run_round hmoves hpendingU hu rfl rfl (requestOf_w2b dst rfl)
    (isAnswer_w2b _ ws) (receive_bytes rfl rfl rfl)
  rw [← hparams]
  refine ⟨t, _, (hround 2).trans (hround' 0), ht, hdone, by simp, by simp, by simp, ?_⟩
  rintro d rfl
  exact lookupName_bindTo_self _ d _

/-- RAWENCODE whose ENCODE fails: W2B is not sent, and its round ends the statement. -/
theorem run_rawEncode_failed (hp : a.program = .send (.rawEncode w h x dst) :: prog)
    (hm : s.moves = .host n :: .block :: ms) (hans : IsAnswer s.params (encodeRequest w h F) r c)
    (failed : r.status ≠ 0) :
    ∃ t, Sys2Proof.core.run 2 s = .next t ∧ t.hosts[n]? = some { a with program := prog, last := some r } ∧
      t.pending = [] := by
  obtain ⟨t, hround, -, -, hdone, ht⟩ := run_round hm hpending ha hw hp (requestOf_rawEncode dst hfit hx) hans
    (receive_of_status_ne_ok hans.exec_eq rfl failed _)
  rw [← hw] at ht
  exact ⟨t, hround 0, ht, hdone⟩

end

/-- Settles O50: RAWDECODE's two rounds, and RAWENCODE's two or its failing first. -/
theorem macrosAreTheirTwoRequests : Obligations.MacrosAreTheirTwoRequests := by
  unfold Obligations.MacrosAreTheirTwoRequests
  intro s n a w h x F dst prog ms hx hpending ha hw hwFits hhFits
  have hx := bytesOperand_eq hx
  have hfit := dimsFit_iff.mpr ⟨hwFits, hhFits⟩
  refine ⟨fun hp hm => ?_, fun hp => ?_⟩
  · obtain ⟨r, c, hans⟩ := exists_isAnswer s.params (decodeRequest w h (wordsOfBytes s.params.endian F))
    obtain ⟨t, a', hend⟩ := run_rawDecode hx hfit hpending ha hw hp hm hans
    have hexec := hans { s with req := decodeRequest w h (wordsOfBytes s.params.endian F) } rfl rfl
    rw [decodeCommand_decodeRequest] at hexec
    exact ⟨_, _, _, r, t, a', exec_b2w _, rfl, hexec, rfl, hend⟩
  · obtain ⟨r, c, hans⟩ := exists_isAnswer s.params (encodeRequest w h F)
    have hexec := hans { s with req := encodeRequest w h F } rfl rfl
    rw [decodeCommand_encodeRequest] at hexec
    refine ⟨_, r, hexec, rfl, fun failed hm => ?_, fun hok hm => ?_⟩
    · obtain ⟨t, hrun, ht, hdone⟩ := run_rawEncode_failed hx hfit hpending ha hw hp hm hans failed
      exact ⟨t, _, hrun, ht, hdone, rfl⟩
    · obtain ⟨e, rfl⟩ | ⟨-, hold⟩ := hans.cases
      · exact absurd hok (statusCode_ne_ok (errorStatus_ne_ok e))
      · rw [decodeCommand_encodeRequest] at hold
        obtain ⟨ws, hws⟩ := hold.exists_outWords
        obtain ⟨t, a', hend⟩ := run_rawEncode hx hfit hpending ha hw hp hm hans hok hws
        exact ⟨ws, _, _, t, a', hws, exec_w2b _, rfl, hend⟩

end Sys2Proof.Machine
end
